-- ==== Sys2Proof/Word.lean ====
section
/-! DEFINITION. The word types of CSUM8-FPACK (00_scope.md R5: every value is unsigned, bit 0 is the least significant). -/

namespace Sys2Proof

/-- A command word `cmd[15:0]` (30_encoding.md R70). -/
abbrev Word := BitVec 16

/-- A byte: ACC, a frame byte, a byte operand (00_scope.md R5). Its `+` is the spec's `+₈`. -/
abbrev Byte := BitVec 8

/-- A 4-bit digit register or operand nibble (10_state.md R22; 30_encoding.md R73). -/
abbrev Digit := BitVec 4

/-- A 3-bit template id (10_state.md R23; 20_memory.md R50). -/
abbrev TemplateId := BitVec 3

/-- A 6-bit frame byte index (10_state.md R25; 20_memory.md R50). -/
abbrev Index := BitVec 6

end Sys2Proof
end

