-- ==== Sys2Proof/Syntax.lean ====
section
/-! DEFINITION. The commands of CSUM8-FPACK as syntax: one constructor per row of the opcode map (30_encoding.md R75, R76). -/

namespace Sys2Proof

/-- A decoded command.
The opcode table has two rows named ILLEGAL, hence two constructors for it; each carries the whole command
word so that no bit is lost (DESIGN CHOICE, safe, log 7).
The block ignores that word (42_system.md R132). -/
inductive Instr where
  /-- NOP (42_system.md R130). -/
  | nop
  /-- CSUM.CLR (40_checksum.md R91). -/
  | csumClr
  /-- CSUM.ADD imm8 (40_checksum.md R92). -/
  | csumAdd (imm8 : Byte)
  /-- CSUM.CHK imm8 (40_checksum.md R93). -/
  | csumChk (imm8 : Byte)
  /-- FP.LDD T, O, F (41_packer.md R101). -/
  | fpLdd (t o f : Digit)
  /-- FP.SEND TID, V (41_packer.md R102); `v = true` is V = 1, draw to back buffer only (30_encoding.md R74). -/
  | fpSend (v : Bool) (tid : TemplateId)
  /-- STAT.CLR (42_system.md R131). -/
  | statClr
  /-- ILLEGAL, row 0x7000 of the table: OP = 0x7, and every word of OP 0x0..0x6 with a reserved bit set (R132, R77). -/
  | illegal (word : Word)
  /-- ILLEGAL, row 0x8000 of the table: OP = 0x8..0xF (R132, R77). -/
  | illegalHigh (word : Word)
  deriving DecidableEq, Repr

/-- The mnemonic of a command as the opcode map spells it (30_encoding.md R75; ILLEGAL: R132). -/
def Instr.mnemonic : Instr → String
  | .nop => "NOP"
  | .csumClr => "CSUM.CLR"
  | .csumAdd _ => "CSUM.ADD"
  | .csumChk _ => "CSUM.CHK"
  | .fpLdd _ _ _ => "FP.LDD"
  | .fpSend _ _ => "FP.SEND"
  | .statClr => "STAT.CLR"
  | .illegal _ => "ILLEGAL"
  | .illegalHigh _ => "ILLEGAL"

end Sys2Proof
end

