-- ==== Sys2Proof/WellFormed.lean ====
section
/-! DEFINITION. Which `Instr` terms are commands of the block.
Every operand has its field's width as a type, so only the two ILLEGAL constructors need a check: the word
they carry is one of the illegal encodings 30_encoding.md R77 lists. -/

namespace Sys2Proof

/-- `OP = cmd[15:12]` (30_encoding.md R70). -/
def Word.op (w : Word) : Nat := w.toNat / 4096

/-- A word of OP 0x0..0x6 with a nonzero reserved field (30_encoding.md R77): `cmd[11:0]` in format Z, `cmd[11:8]` in
format B, `cmd[11:4]` in format S; format D has no reserved bit. -/
def Word.reservedBitSet (w : Word) : Bool :=
  match Word.op w with
  | 0 | 1 | 6 => w.toNat % 4096 != 0
  | 2 | 3 => w.toNat / 256 % 16 != 0
  | 5 => w.toNat / 16 % 256 != 0
  | _ => false

/-- The illegal encodings of 30_encoding.md R77. -/
def Word.isIllegal (w : Word) : Bool := decide (7 ≤ Word.op w) || Word.reservedBitSet w

/-- The term is a command the decoder can give. -/
def Instr.wf : Instr → Bool
  | .nop | .csumClr | .csumAdd _ | .csumChk _ | .fpLdd _ _ _ | .fpSend _ _ | .statClr => true
  | .illegal w => Word.isIllegal w && decide (Word.op w ≤ 7)
  | .illegalHigh w => decide (8 ≤ Word.op w)

/-- The well-formed commands, as a proposition. -/
abbrev Instr.WellFormed (i : Instr) : Prop := i.wf = true

end Sys2Proof
end

