-- ==== Sys2Proof/Decode.lean ====
section
/-! DEFINITION. Decoding of command words, total over all 65536 (30_encoding.md R76), the encoder, and the opcode map as
data (R75). -/

namespace Sys2Proof

/-- The bit field `w[lo+n-1 : lo]` (00_scope.md R5). -/
def field (w : Word) (lo n : Nat) : BitVec n := w.extractLsb' lo n

/-- The decoder, as 30_encoding.md R76 writes it.
A word that is no command decodes to an ILLEGAL constructor, by its row of the table. -/
def decode (w : Word) : Instr :=
  match (field w 12 4).toNat with
  | 0x0 => if field w 0 12 = 0 then .nop else .illegal w
  | 0x1 => if field w 0 12 = 0 then .csumClr else .illegal w
  | 0x2 => if field w 8 4 = 0 then .csumAdd (field w 0 8) else .illegal w
  | 0x3 => if field w 8 4 = 0 then .csumChk (field w 0 8) else .illegal w
  | 0x4 => .fpLdd (field w 8 4) (field w 4 4) (field w 0 4)
  | 0x5 => if field w 4 8 = 0 then .fpSend (w.getLsbD 3) (field w 0 3) else .illegal w
  | 0x6 => if field w 0 12 = 0 then .statClr else .illegal w
  | 0x7 => .illegal w
  | _ => .illegalHigh w

/-- The word of a command, from the bit patterns of 30_encoding.md R71 to R75; an ILLEGAL is the word it carries
(DESIGN CHOICE, safe, log 7). -/
def encode : Instr → Word
  | .nop => 0x0000#16
  | .csumClr => 0x1000#16
  | .csumAdd b => 0x20#8 ++ b
  | .csumChk b => 0x30#8 ++ b
  | .fpLdd t o f => 0x4#4 ++ t ++ o ++ f
  | .fpSend v tid => 0x500#12 ++ BitVec.ofBool v ++ tid
  | .statClr => 0x6000#16
  | .illegal w => w
  | .illegalHigh w => w

/-- One row of the opcode map: a word is the row's when its bits under `mask` are those of `pattern`. -/
structure OpcodeRow where
  mnemonic : String
  pattern : Word
  mask : Word
  deriving DecidableEq, Repr

/-- `(cmd & mask) = match` (30_encoding.md R76). -/
def OpcodeRow.covers (r : OpcodeRow) (w : Word) : Bool := w &&& r.mask == r.pattern

/-- The opcode map of 30_encoding.md R75, match and mask as its table gives them; the last two rows are those of
opcode_table.json for the reserved opcodes. -/
def opcodeMap : List OpcodeRow :=
  [⟨"NOP", 0x0000, 0xFFFF⟩, ⟨"CSUM.CLR", 0x1000, 0xFFFF⟩, ⟨"CSUM.ADD", 0x2000, 0xFF00⟩,
   ⟨"CSUM.CHK", 0x3000, 0xFF00⟩, ⟨"FP.LDD", 0x4000, 0xF000⟩, ⟨"FP.SEND", 0x5000, 0xFFF0⟩,
   ⟨"STAT.CLR", 0x6000, 0xFFFF⟩, ⟨"ILLEGAL", 0x7000, 0xF000⟩, ⟨"ILLEGAL", 0x8000, 0x8000⟩]

/-- A command word from `nbits` bits numbered as opcode_table.json numbers them; bits at and above `nbits` are 0. -/
def tableWord (nbits w : Nat) : Word := BitVec.ofNat 16 (w % 2 ^ nbits)

/-- The command the decoder reads from a table word.
Every command is exactly one 16-bit word (30_encoding.md R70), so a wider one is none (DESIGN CHOICE, safe, log 15). -/
def decodeTableWord (nbits w : Nat) : Option Instr :=
  if nbits ≤ 16 then some (decode (tableWord nbits w)) else none

end Sys2Proof
end

