-- ==== Sys2Proof/Machine/Ports.lean ====
section
/-! DEFINITION. The ports of the block (10_state.md R32) as records of inputs and outputs. -/

namespace Sys2Proof.Machine

/-- The inputs sampled at one rising edge of `clk` (00_scope.md R7; 10_state.md R32). -/
structure Inputs where
  /-- `rst`, synchronous, active high. -/
  rst      : Bool
  /-- `cmd[15:0]`, the command word the host offers. -/
  cmd      : Word
  /-- `cmd_valid`: the host offers `cmd`. -/
  cmdValid : Bool
  /-- `out_ready`: the sink takes the presented byte at this edge. -/
  outReady : Bool
  deriving DecidableEq, Repr, Inhabited

/-- The outputs during one cycle (10_state.md R32, R33). -/
structure Outputs where
  cmdReady : Bool
  /-- `out_data`: `none` only where the state presents an unpopulated ROM address, which no legal state does (DESIGN CHOICE, safe,
  log 8). -/
  outData  : Option Byte
  outValid : Bool
  /-- `out_last`: false where a busy state holds a reserved id in TSEL, for which the spec gives no length (DESIGN CHOICE,
  log 18). -/
  outLast  : Bool
  /-- `acc_o`. -/
  accO     : Byte
  /-- `status_o`. -/
  statusO  : Byte
  deriving DecidableEq, Repr

end Sys2Proof.Machine
end

