-- ==== Sys2Proof/Machine/State.lean ====
section
/-! DEFINITION. The state of the block (10_state.md R20), its reset value (R37), and the reasons a step can stop. -/

namespace Sys2Proof.Machine

/-- DIG: the three BCD digit registers (10_state.md R22). -/
structure Digits where
  tens   : Digit
  ones   : Digit
  tenths : Digit
  deriving DecidableEq, Repr

/-- The state: the tuple of 10_state.md R20, then two fields of the model's own for the input draws. -/
@[ext]
structure State where
  /-- ACC (R21). -/
  acc     : Byte
  /-- DIG (R22). -/
  dig     : Digits
  /-- TSEL (R23). -/
  tsel    : TemplateId
  /-- VAR, 1 bit; `true` is 1 (R24). -/
  var     : Bool
  /-- IDX (R25). -/
  idx     : Index
  /-- BUSY (R26). -/
  busy    : Bool
  /-- MATCH (R27). -/
  matched : Bool
  /-- ERR_ILL (R28). -/
  errIll  : Bool
  /-- ERR_DIG (R29). -/
  errDig  : Bool
  /-- The model's own (DESIGN CHOICE, safe, log 3): the input draws already made for the coming edges, earliest first. -/
  pending : List Inputs
  /-- The model's own (DESIGN CHOICE, safe, log 3): how many free draws have been taken. -/
  draws   : Nat
  deriving DecidableEq, Repr

/-- The error conditions of the block (60_exceptions.md R140). They are sticky flags, not stops. -/
inductive ErrorCause where
  /-- An illegal word, or FP.SEND with a reserved TID or an illegal variant (R141). -/
  | errIll
  /-- FP.LDD with a digit nibble above 9 (R142). -/
  | errDig
  deriving DecidableEq, Repr

/-- Why a step can stop with a fault. -/
inductive Fault where
  /-- Raised by an emission transfer whose ROM address (TSEL, IDX) is not populated (20_memory.md R50: such an address is
  never read). No legal state raises it. Safe (log 6). -/
  | unpopulatedRomRead
  deriving DecidableEq, Repr

/-- Why a step can be refused. -/
inductive Refusal where
  /-- An instruction without a meaning, rejected by name. No arm uses it. Safe. -/
  | notModelled (mnemonic : String)
  /-- Raised when a block is to be run with a TEMPLATE_ROM that fails one of W1 to W7 (20_memory.md R52, decision D28: the
  model has no meaning for it). Safe (log 2). -/
  | illFormedRom
  deriving DecidableEq, Repr

/-- The state after a reset edge (10_state.md R37). `pending` and `draws` are the model's own: DESIGN CHOICE, safe, log 4. -/
def State.reset : State where
  acc := 0x00
  dig := ⟨0, 0, 0⟩
  tsel := 0
  var := false
  idx := 0
  busy := false
  matched := false
  errIll := false
  errDig := false
  pending := []
  draws := 0

end Sys2Proof.Machine
end

