-- ==== Sys2Proof/Machine/Flags.lean ====
section
/-! DEFINITION. The flags and the STATUS view (10_state.md R26 to R31). The block has no carry, overflow, zero or sign flag. -/

namespace Sys2Proof.Machine

/-- STATUS = {0000, ERR_DIG, ERR_ILL, MATCH, BUSY}, a read-only view (10_state.md R30). -/
def State.status (s : State) : Byte :=
  0#4 ++ BitVec.ofBool s.errDig ++ BitVec.ofBool s.errIll ++ BitVec.ofBool s.matched ++ BitVec.ofBool s.busy

/-- The value CSUM.CHK gives MATCH: 1 if ACC equals the operand (10_state.md R27). -/
def matchFlag (acc imm8 : Byte) : Bool := acc == imm8

/-- The cause code of an error: the STATUS bit it sets (60_exceptions.md R140). -/
def ErrorCause.code : ErrorCause → Nat
  | .errIll => 2
  | .errDig => 3

end Sys2Proof.Machine
end

