-- ==== Sys2Proof/Machine/Rom.lean ====
section
/-! DEFINITION. TEMPLATE_ROM: its record of parameters (00_scope.md R4), the template map (20_memory.md R50) and the
well-formedness checks W1 to W7 (R53 to R58). -/

namespace Sys2Proof.Machine

/-- A draw template: its bytes and the parameters only draw templates have (00_scope.md R4). -/
structure DrawTemplate where
  bytes   : List Byte
  /-- NUM_OFF[t], the index of the tens digit. -/
  numOff  : Nat
  /-- OPC_SHOW[t], the opcode byte of variant 0. -/
  opcShow : Byte
  /-- OPC_BACK[t], the opcode byte of variant 1. -/
  opcBack : Byte
  deriving DecidableEq, Repr

/-- TEMPLATE_ROM (00_scope.md R4). L[t] is the length of the list of template t. -/
structure TemplateRom where
  /-- STX, the byte at index 0 of every template. -/
  stx      : Byte
  clrTemp  : List Byte
  clrHum   : List Byte
  drawTemp : DrawTemplate
  drawHum  : DrawTemplate
  flip     : List Byte
  deriving DecidableEq, Repr

/-- OPC_OFF, the index of the opcode byte (00_scope.md R4). -/
def opcOff : Nat := 4

/-- The template ids in use (20_memory.md R50); 5..7 are reserved. -/
def templateIds : List TemplateId := [0, 1, 2, 3, 4]

/-- The templates with variants and digits: DRAW_TEMP and DRAW_HUM (20_memory.md R50). -/
def isDraw (t : TemplateId) : Bool := t == 2 || t == 3

namespace TemplateRom

/-- The bytes of template `t` (20_memory.md R50). The spec gives a reserved id 5..7 none and no length; here it has none, so
its L and its CSO are 0 (DESIGN CHOICE, log 18). -/
def bytes (rom : TemplateRom) (t : TemplateId) : List Byte :=
  match t.toNat with
  | 0 => rom.clrTemp
  | 1 => rom.clrHum
  | 2 => rom.drawTemp.bytes
  | 3 => rom.drawHum.bytes
  | 4 => rom.flip
  | _ => []

/-- L[t] (00_scope.md R4); 0 for a reserved id, where the spec gives none (DESIGN CHOICE, log 18). -/
def len (rom : TemplateRom) (t : TemplateId) : Nat := (rom.bytes t).length

/-- CSO[t] = L[t] - 2, the index of the checksum byte (20_memory.md R54); 0 for a reserved id (DESIGN CHOICE, log 18). -/
def cso (rom : TemplateRom) (t : TemplateId) : Nat := rom.len t - 2

/-- Only `t` in 0..4 and `i < L[t]` are populated (20_memory.md R50). -/
def populated (rom : TemplateRom) (t : TemplateId) (i : Index) : Bool := decide (i.toNat < rom.len t)

/-- `RomRead(t, i) = ROM[t][i]`; an unpopulated address holds no byte (20_memory.md R50). -/
def read (rom : TemplateRom) (t : TemplateId) (i : Index) : Option Byte := (rom.bytes t)[i.toNat]?

/-- The draw parameters of template `t`, asked for only when `isDraw t`; the spec gives no other template any
(DESIGN CHOICE, log 18). -/
def draw (rom : TemplateRom) (t : TemplateId) : DrawTemplate := if t = 3 then rom.drawHum else rom.drawTemp

/-- NUM_OFF[t], `t` in 2, 3. -/
def numOff (rom : TemplateRom) (t : TemplateId) : Nat := (rom.draw t).numOff

/-- The opcode byte of variant `v` of a draw template: OPC_SHOW[t] for V = 0, OPC_BACK[t] for V = 1 (10_state.md R24). -/
def opcode (rom : TemplateRom) (t : TemplateId) (v : Bool) : Byte :=
  if v then (rom.draw t).opcBack else (rom.draw t).opcShow

/-- W1: the clear frames are 16 bytes (20_memory.md R53). -/
def w1 (rom : TemplateRom) : Bool := rom.len 0 == 16 && rom.len 1 == 16

/-- W2: the draw frames are 30..33 bytes and FLIP is 7..64 (20_memory.md R53). -/
def w2 (rom : TemplateRom) : Bool :=
  decide (30 ≤ rom.len 2 ∧ rom.len 2 ≤ 33) && decide (30 ≤ rom.len 3 ∧ rom.len 3 ≤ 33) &&
    decide (7 ≤ rom.len 4 ∧ rom.len 4 ≤ 64)

/-- W3: every template ends with CR (20_memory.md R54). -/
def w3 (rom : TemplateRom) : Bool := templateIds.all fun t => (rom.bytes t)[rom.len t - 1]? == some 0x0D#8

/-- W4: every template begins with the common STX and has at least 7 bytes (20_memory.md R55). -/
def w4 (rom : TemplateRom) : Bool :=
  templateIds.all fun t => (rom.bytes t)[0]? == some rom.stx && decide (7 ≤ rom.len t)

/-- W5: the numeric field lies after the header and before the checksum (20_memory.md R56). -/
def w5 (rom : TemplateRom) : Bool :=
  decide (5 ≤ rom.drawTemp.numOff ∧ rom.drawTemp.numOff + 3 < rom.cso 2) &&
    decide (5 ≤ rom.drawHum.numOff ∧ rom.drawHum.numOff + 1 < rom.cso 3)

/-- W6: the decimal point stands in DRAW_TEMP after the ones digit (20_memory.md R57; ASCII code PRESUMED, log 16). -/
def w6 (rom : TemplateRom) : Bool := rom.drawTemp.bytes[rom.drawTemp.numOff + 2]? == some 0x2E#8

/-- W7: the two opcode bytes of a draw template differ (20_memory.md R58). -/
def w7 (rom : TemplateRom) : Bool :=
  rom.drawTemp.opcShow != rom.drawTemp.opcBack && rom.drawHum.opcShow != rom.drawHum.opcBack

/-- The ROM passes W1 to W7 (20_memory.md R52). -/
def wf (rom : TemplateRom) : Bool := rom.w1 && rom.w2 && rom.w3 && rom.w4 && rom.w5 && rom.w6 && rom.w7

/-- A ROM that passes the checks, of zero bytes where they ask for nothing.
It shows that well-formed ROMs exist and nothing else: no definition of the machine and no statement uses its bytes. -/
def bare : TemplateRom where
  stx := 0
  clrTemp := List.replicate 15 0 ++ [0x0D]
  clrHum := List.replicate 15 0 ++ [0x0D]
  drawTemp := ⟨List.replicate 7 0 ++ [0x2E] ++ List.replicate 21 0 ++ [0x0D], 5, 0, 1⟩
  drawHum := ⟨List.replicate 29 0 ++ [0x0D], 5, 0, 1⟩
  flip := List.replicate 6 0 ++ [0x0D]

end TemplateRom

/-- A TEMPLATE_ROM that passes W1 to W7, with the evidence: a block is built from nothing else (20_memory.md R52,
decision D28). The default field values only show that the type is inhabited. -/
structure WellFormedRom where
  rom : TemplateRom := TemplateRom.bare
  ok  : rom.wf = true := by decide
  deriving Inhabited

/-- Admit a ROM if it passes W1 to W7 (decision D28). -/
def TemplateRom.toWellFormed (rom : TemplateRom) : Option WellFormedRom :=
  if h : rom.wf = true then some ⟨rom, h⟩ else none

end Sys2Proof.Machine
end

