-- ==== Sys2Proof/Config.lean ====
section
/-! DEFINITION. What one implementation fixes and what is free: constants with no body, of which nothing can be proved but
what their types say. -/

namespace Sys2Proof.Config

/-- TEMPLATE_ROM of the block at hand, the OPEN parameter of 00_scope.md R4: known only to pass W1 to W7 (20_memory.md
R52; DESIGN CHOICE, safe, log 1). -/
opaque templateRom : Machine.WellFormedRom

/-- The free draw of the inputs at an edge for which State holds none: the n-th such draw (00_scope.md R8; DESIGN CHOICE, safe, log 3). -/
opaque freeInputs : Nat → Machine.Inputs

end Sys2Proof.Config
end

