-- ==== Sys2Proof/Machine/Ops.lean ====
section
/-! DEFINITION. The named operations over the state that meanings, reset and the step share. -/

namespace Sys2Proof.Machine

namespace State

/-- `ACC <- 0x00` (40_checksum.md R91). -/
def clearAcc (s : State) : State := { s with acc := 0x00 }

/-- `ACC <- ACC +₈ b`: modulo 256, no carry recorded (40_checksum.md R92, R94). -/
def addAcc (b : Byte) (s : State) : State := { s with acc := s.acc + b }

/-- `MATCH <- m` (40_checksum.md R93). -/
def setMatched (m : Bool) (s : State) : State := { s with matched := m }

/-- `DIG <- d` (41_packer.md R101). -/
def loadDigits (d : Digits) (s : State) : State := { s with dig := d }

/-- Start a frame: TSEL, VAR, `IDX <- 0`, `ACC <- 0`, `BUSY <- 1` (41_packer.md R102). -/
def startFrame (v : Bool) (tid : TemplateId) (s : State) : State :=
  { s with tsel := tid, var := v, idx := 0, acc := 0x00, busy := true }

/-- Raise an error (60_exceptions.md R143): its flag becomes 1, a flag already 1 stays 1, nothing else is written, and
control goes nowhere. This is all that taking an exception is on this block (R148). -/
def raise (e : ErrorCause) (s : State) : State :=
  match e with
  | .errIll => { s with errIll := true }
  | .errDig => { s with errDig := true }

/-- Clear the sticky error flags, the counterpart of a return (42_system.md R131; 60_exceptions.md R148). -/
def clearErrors (s : State) : State := { s with errIll := false, errDig := false }

/-- Every state element takes its reset value (70_reset_and_hazards.md R160). The input draws are the environment's and
stay (DESIGN CHOICE, safe, log 3). -/
def resetBlock (s : State) : State := { reset with pending := s.pending, draws := s.draws }

/-- The inputs the next edge samples: the earliest draw already made, else a free draw (00_scope.md R7, R8; DESIGN CHOICE,
safe, log 3). -/
def nextInputs (s : State) : Inputs :=
  match s.pending with
  | inp :: _ => inp
  | [] => Config.freeInputs s.draws

/-- The state with that draw taken. -/
def dropInputs (s : State) : State :=
  match s.pending with
  | _ :: rest => { s with pending := rest }
  | [] => { s with draws := s.draws + 1 }

/-- The host offers `w` at the next edge, with no reset, to a block that is not sending (DESIGN CHOICE, safe, log 5).
A frame in progress is dropped, since a busy block accepts no command (70_reset_and_hazards.md R164). -/
def offerNext (w : Word) (s : State) : State :=
  { s with
    pending := { (s.pending.headD default) with rst := false, cmd := w, cmdValid := true } :: s.pending.tail
    idx := if s.busy then 0 else s.idx
    busy := false }

end State

end Sys2Proof.Machine
end

