-- ==== Sys2Proof/Machine/Checksum.lean ====
section
/-! DEFINITION. The checksum function and the checksum accumulator commands (40_checksum.md). -/

namespace Sys2Proof.Machine

/-- `csum(s, n) = (Σ_{i<n} s[i]) mod 256` (40_checksum.md R90).
The rule gives a value for valid ranges only; for n beyond the length of s the model sums all of s (DESIGN CHOICE, unsafe for
claims about such n only, log 17). -/
def csum (s : List Byte) (n : Nat) : Byte := BitVec.ofNat 8 (((s.take n).map BitVec.toNat).sum % 256)

/-- CSUM.CLR (40_checksum.md R91). -/
def execCsumClr (s : State) : Host.Outcome State Fault Refusal := .next s.clearAcc

/-- CSUM.ADD (40_checksum.md R92). -/
def execCsumAdd (imm8 : Byte) (s : State) : Host.Outcome State Fault Refusal := .next (s.addAcc imm8)

/-- CSUM.CHK (40_checksum.md R93). -/
def execCsumChk (imm8 : Byte) (s : State) : Host.Outcome State Fault Refusal :=
  .next (s.setMatched (matchFlag s.acc imm8))

end Sys2Proof.Machine
end

