-- ==== Sys2Proof/Machine/Operands.lean ====
section
/-! DEFINITION. Operand forms and checks: the digit encoding (41_packer.md R100) and the legality of FP.LDD and FP.SEND
operands (R101, R102). Immediates are used as they stand (30_encoding.md R78). -/

namespace Sys2Proof.Machine

/-- `AsciiDigit(d) = 0x30 + zext_8(d)` (41_packer.md R100; ASCII codes PRESUMED, log 16; d above 9 DEDUCED, unsafe in
illegal states only, log 9). -/
def asciiDigit (d : Digit) : Byte := 0x30#8 + d.setWidth 8

/-- `AsciiTens(d)`: a tens digit of 0 is blanked to a space (41_packer.md R100). -/
def asciiTens (d : Digit) : Byte := if d = 0 then 0x20#8 else asciiDigit d

/-- The three nibbles of FP.LDD are BCD digits: none is above 9 (41_packer.md R101). -/
def Digits.legal (d : Digits) : Bool :=
  decide (d.tens.toNat ≤ 9) && decide (d.ones.toNat ≤ 9) && decide (d.tenths.toNat ≤ 9)

/-- FP.SEND's operands are legal: TID in 0..4, and V = 1 only for TID 2 or 3 (41_packer.md R102). -/
def sendLegal (v : Bool) (tid : TemplateId) : Bool := decide (tid.toNat ≤ 4) && (!v || tid == 2 || tid == 3)

end Sys2Proof.Machine
end

