-- ==== Sys2Proof/Machine/Packer.lean ====
section
/-! DEFINITION. The frame packer: its commands, the byte multiplexer and the emission of one byte (41_packer.md). -/

namespace Sys2Proof.Machine

/-- FP.LDD: all three digits or none (41_packer.md R101). -/
def execFpLdd (t o f : Digit) (s : State) : Host.Outcome State Fault Refusal :=
  if Digits.legal ⟨t, o, f⟩ then .next (s.loadDigits ⟨t, o, f⟩) else .next (s.raise .errDig)

/-- FP.SEND (41_packer.md R102). -/
def execFpSend (v : Bool) (tid : TemplateId) (s : State) : Host.Outcome State Fault Refusal :=
  if sendLegal v tid then .next (s.startFrame v tid) else .next (s.raise .errIll)

/-- ByteAt, the byte multiplexer, in the order 41_packer.md R103 lists its cases; `none` at an address the ROM does not
populate, where the spec gives no byte (20_memory.md R50; DESIGN CHOICE, safe, log 6). -/
def byteAt (rom : TemplateRom) (t : TemplateId) (v : Bool) (d : Digits) (acc : Byte) (i : Index) : Option Byte :=
  if !rom.populated t i then none
  else if i.toNat = rom.cso t then some acc
  else if isDraw t && i.toNat == opcOff then some (rom.opcode t v)
  else if isDraw t && i.toNat == rom.numOff t then some (asciiTens d.tens)
  else if isDraw t && i.toNat == rom.numOff t + 1 then some (asciiDigit d.ones)
  else if t == 2 && i.toNat == rom.numOff 2 + 3 then some (asciiDigit d.tenths)
  else rom.read t i

/-- The byte the state presents: `ByteAt(TSEL, VAR, DIG, ACC, IDX)` (10_state.md R33). -/
def State.presented (rom : TemplateRom) (s : State) : Option Byte := byteAt rom s.tsel s.var s.dig s.acc s.idx

/-- The presented byte is the last of its frame: `IDX = L[TSEL] - 1` (10_state.md R33).
For a reserved id in TSEL, which no run from reset reaches, the spec gives no L and this is false for every IDX (DESIGN CHOICE,
unsafe for claims about such states only, log 18). -/
def State.atLast (rom : TemplateRom) (s : State) : Bool := s.idx.toNat + 1 == rom.len s.tsel

/-- The byte `b` transfers (41_packer.md R104): below CSO it is added to ACC; after the last byte the frame is complete,
else IDX advances. -/
def State.transferByte (rom : TemplateRom) (b : Byte) (s : State) : State :=
  { s with
    acc := if s.idx.toNat < rom.cso s.tsel then s.acc + b else s.acc
    busy := if s.atLast rom then false else s.busy
    idx := if s.atLast rom then 0 else s.idx + 1 }

/-- The emission step of a busy block (41_packer.md R104): a transfer if the sink is ready, else a stall. -/
def emit (rom : TemplateRom) (outReady : Bool) (s : State) : Host.Outcome State Fault Refusal :=
  if outReady then
    match s.presented rom with
    | some b => .next (s.transferByte rom b)
    | none => .fault .unpopulatedRomRead
  else .next s

end Sys2Proof.Machine
end

