-- ==== Sys2Proof/Machine/System.lean ====
section
/-! DEFINITION. The system commands and illegal words (42_system.md). -/

namespace Sys2Proof.Machine

/-- NOP (42_system.md R130). -/
def execNop (s : State) : Host.Outcome State Fault Refusal := .next s

/-- STAT.CLR (42_system.md R131). -/
def execStatClr (s : State) : Host.Outcome State Fault Refusal := .next s.clearErrors

/-- ILLEGAL of opcode 0x7 or with a reserved bit set (42_system.md R132): the word's bits are ignored. -/
def execIllegal (s : State) : Host.Outcome State Fault Refusal := .next (s.raise .errIll)

/-- ILLEGAL of opcode 0x8 to 0xF (42_system.md R132): the word's bits are ignored. -/
def execIllegalHigh (s : State) : Host.Outcome State Fault Refusal := .next (s.raise .errIll)

end Sys2Proof.Machine
end

