-- ==== Sys2Proof/Machine/Dispatch.lean ====
section
/-! DEFINITION. One arm per command: `execute(decode(cmd))` of 41_packer.md R104. -/

namespace Sys2Proof.Machine

def exec (i : Instr) (s : State) : Host.Outcome State Fault Refusal :=
  match i with
  | .nop => Sys2Proof.Machine.execNop s
  | .csumClr => Sys2Proof.Machine.execCsumClr s
  | .csumAdd imm8 => Sys2Proof.Machine.execCsumAdd imm8 s
  | .csumChk imm8 => Sys2Proof.Machine.execCsumChk imm8 s
  | .fpLdd t o f => Sys2Proof.Machine.execFpLdd t o f s
  | .fpSend v tid => Sys2Proof.Machine.execFpSend v tid s
  | .statClr => Sys2Proof.Machine.execStatClr s
  | .illegal _ => Sys2Proof.Machine.execIllegal s
  | .illegalHigh _ => Sys2Proof.Machine.execIllegalHigh s

end Sys2Proof.Machine
end

