-- ==== Sys2Proof/Machine/Observe.lean ====
section
/-! DEFINITION. The outputs of the block (10_state.md R33): combinational functions of the state and `rst`. -/

namespace Sys2Proof.Machine

/-- `cmd_ready = (BUSY = 0) and (rst = 0)` (10_state.md R33). -/
def State.cmdReady (rst : Bool) (s : State) : Bool := !s.busy && !rst

/-- `out_valid = (BUSY = 1) and (rst = 0)` (10_state.md R33). -/
def State.outValid (rst : Bool) (s : State) : Bool := s.busy && !rst

/-- The outputs during the cycle before an edge (10_state.md R33). In a busy state with a reserved id in TSEL, `out_data` (log 8)
and `out_last` (log 18) are the model's choice. -/
def outputs (rom : TemplateRom) (rst : Bool) (s : State) : Outputs where
  cmdReady := s.cmdReady rst
  outData := if s.outValid rst then s.presented rom else some 0x00
  outValid := s.outValid rst
  outLast := s.outValid rst && s.atLast rom
  accO := s.acc
  statusO := s.status

/-- A command is accepted at an edge iff `cmd_valid` and `cmd_ready` (10_state.md R33). -/
def accepts (inp : Inputs) (s : State) : Bool := inp.cmdValid && s.cmdReady inp.rst

/-- The byte that transfers at an edge, if one does: `out_valid` and `out_ready` (10_state.md R33). -/
def transferred (rom : TemplateRom) (inp : Inputs) (s : State) : Option Byte :=
  if (outputs rom inp.rst s).outValid && inp.outReady then (outputs rom inp.rst s).outData else none

end Sys2Proof.Machine
end

