-- ==== Sys2Proof/Machine/Edge.lean ====
section
/-! DEFINITION. One rising edge (41_packer.md R104), and runs of many edges with the bytes the sink receives. -/

namespace Sys2Proof.Machine

/-- The transition at one rising edge (41_packer.md R104): reset, else emission, else an offered command, else nothing. -/
def edge (rom : WellFormedRom) (inp : Inputs) (s : State) : Host.Outcome State Fault Refusal :=
  if inp.rst then .next s.resetBlock
  else if s.busy then emit rom.rom inp.outReady s
  else if inp.cmdValid then exec (decode inp.cmd) s
  else .next s

/-- The same for a TEMPLATE_ROM not yet checked: one that fails W1 to W7 is refused (20_memory.md R52, decision D28). -/
def edgeWithRom (rom : TemplateRom) (inp : Inputs) (s : State) : Host.Outcome State Fault Refusal :=
  match rom.toWellFormed with
  | some r => edge r inp s
  | none => .refused .illFormedRom

/-- The edges of a list of inputs, in order, stopping at the first fault or refusal. -/
def runEdges (rom : WellFormedRom) : List Inputs → State → Host.Outcome State Fault Refusal
  | [], s => .next s
  | inp :: rest, s =>
    match edge rom inp s with
    | .next t => runEdges rom rest t
    | .fault r => .fault r
    | .refused r => .refused r

/-- The bytes that transfer during those edges, in order (20_memory.md R59). -/
def emitted (rom : WellFormedRom) : List Inputs → State → List Byte
  | [], _ => []
  | inp :: rest, s =>
    (transferred rom.rom inp s).toList ++
      match edge rom inp s with
      | .next t => emitted rom rest t
      | .fault _ => []
      | .refused _ => []

end Sys2Proof.Machine
end

