-- ==== Sys2Proof/Machine/Step.lean ====
section
/-! DEFINITION. The step: the next draw of the inputs is taken and the block makes one rising edge with it (00_scope.md R7). -/

namespace Sys2Proof.Machine

/-- One rising edge of `clk`. -/
def step (s : State) : Host.Outcome State Fault Refusal := edge Config.templateRom s.nextInputs s.dropInputs

/-- The state in which the next edge accepts the given command word (DESIGN CHOICE, safe, log 5). -/
def State.withFetchWord (s : State) (nbits w : Nat) : State := s.offerNext (tableWord nbits w)

end Sys2Proof.Machine
end

