-- ==== Sys2Proof/Machine/Assembler.lean ====
section
/-! DEFINITION. The assembler: commands and pseudo-instructions with number operands, to command words (30_encoding.md
R80, R81). A notation only: the block itself never sees it. -/

namespace Sys2Proof.Machine

/-- Why an assembler refuses a line (30_encoding.md R80). -/
inductive AsmError where
  /-- An operand is outside its field's range: refused, not truncated (R80). -/
  | outOfRange
  /-- No command or pseudo-instruction has this name. -/
  | unknownMnemonic
  /-- The line has too few or too many operands. -/
  | operandCount
  /-- An operand is neither a number nor a name the field takes. -/
  | badOperand
  deriving DecidableEq, Repr

/-- A line that stands for one word: the syntax of 30_encoding.md R80 with its operands as numbers. -/
inductive AsmCommand where
  | nop
  | csumClr
  | csumAdd (imm8 : Nat)
  | csumChk (imm8 : Nat)
  | fpLdd (tens ones tenths : Nat)
  | fpSend (template variant : Nat)
  | statClr
  /-- `.word imm16`, the only way to write an illegal word. -/
  | word (imm16 : Nat)
  deriving DecidableEq, Repr

/-- A pseudo-instruction (30_encoding.md R81). -/
inductive AsmPseudo where
  | seed (b : Nat)
  | sum (bs : List Nat)
  | verify (c : Nat) (bs : List Nat)
  | updTemp (tens ones tenths variant : Nat)
  | updHum (tens ones variant : Nat)
  | updFlip
  deriving DecidableEq, Repr

/-- A line of an assembler program. -/
inductive AsmLine where
  | command (c : AsmCommand)
  | pseudo (p : AsmPseudo)
  deriving DecidableEq, Repr

/-- The template names of 30_encoding.md R80. -/
def templateNumber : List (String × Nat) :=
  [("CLR_TEMP", 0), ("CLR_HUM", 1), ("DRAW_TEMP", 2), ("DRAW_HUM", 3), ("FLIP", 4)]

/-- The variant names of 30_encoding.md R80. -/
def variantNumber : List (String × Nat) := [("SHOW", 0), ("BACK", 1)]

/-- The commands a pseudo-instruction expands to, in order (30_encoding.md R81). -/
def expandPseudo : AsmPseudo → List AsmCommand
  | .seed b => [.csumClr, .csumAdd b]
  | .sum bs => .csumClr :: bs.map .csumAdd
  | .verify c bs => .csumClr :: bs.map .csumAdd ++ [.csumChk c]
  | .updTemp t o f v => [.fpLdd t o f, .fpSend 0 0, .fpSend 2 v]
  | .updHum t o v => [.fpLdd t o 0, .fpSend 1 0, .fpSend 3 v]
  | .updFlip => [.fpSend 4 0]

/-- The commands of a line. -/
def expandLine : AsmLine → List AsmCommand
  | .command c => [c]
  | .pseudo p => expandPseudo p

/-- The command a line names, if every operand lies in its field's range (30_encoding.md R80). -/
def commandInstr : AsmCommand → Except AsmError Instr
  | .nop => .ok .nop
  | .csumClr => .ok .csumClr
  | .csumAdd n => if n ≤ 255 then .ok (.csumAdd (BitVec.ofNat 8 n)) else .error .outOfRange
  | .csumChk n => if n ≤ 255 then .ok (.csumChk (BitVec.ofNat 8 n)) else .error .outOfRange
  | .fpLdd t o f =>
    if t ≤ 15 ∧ o ≤ 15 ∧ f ≤ 15 then .ok (.fpLdd (BitVec.ofNat 4 t) (BitVec.ofNat 4 o) (BitVec.ofNat 4 f))
    else .error .outOfRange
  | .fpSend t v => if t ≤ 7 ∧ v ≤ 1 then .ok (.fpSend (v == 1) (BitVec.ofNat 3 t)) else .error .outOfRange
  | .statClr => .ok .statClr
  | .word n => if n ≤ 65535 then .ok (decode (BitVec.ofNat 16 n)) else .error .outOfRange

/-- The word of a command line. -/
def assembleCommand (c : AsmCommand) : Except AsmError Word :=
  match commandInstr c with
  | .ok i => .ok (encode i)
  | .error e => .error e

/-- The words of command lines, in order; the first refusal refuses all. -/
def assembleAll : List AsmCommand → Except AsmError (List Word)
  | [] => .ok []
  | c :: rest =>
    match assembleCommand c, assembleAll rest with
    | .ok w, .ok ws => .ok (w :: ws)
    | .error e, _ => .error e
    | .ok _, .error e => .error e

/-- The words of a line. -/
def assembleLine (l : AsmLine) : Except AsmError (List Word) := assembleAll (expandLine l)

/-! ### Lines as text (30_encoding.md R80; spacing and letter case: DESIGN CHOICE, safe, log 13) -/

/-- A space or a tab separates a mnemonic from its operands. -/
def isBlank (c : Char) : Bool := c == ' ' || c == '\t'

/-- The text without blanks at its ends. -/
def trimBlanks (cs : List Char) : List Char := ((cs.dropWhile isBlank).reverse.dropWhile isBlank).reverse

/-- The text cut at its commas. -/
def splitCommas : List Char → List (List Char)
  | [] => [[]]
  | c :: rest =>
    match splitCommas rest with
    | [] => [[c]]
    | first :: others => if c == ',' then [] :: first :: others else (c :: first) :: others

/-- The value of a digit in base 10 or 16. -/
def digitValue (base : Nat) (c : Char) : Option Nat :=
  let n := c.toNat
  let v := if 48 ≤ n ∧ n ≤ 57 then n - 48 else if 65 ≤ n ∧ n ≤ 70 then n - 55 else if 97 ≤ n ∧ n ≤ 102 then n - 87 else 99
  if v < base then some v else none

/-- The number that digits write after `acc`. -/
def digitsValue (base : Nat) : Nat → List Char → Option Nat
  | acc, [] => some acc
  | acc, c :: rest =>
    match digitValue base c with
    | some v => digitsValue base (acc * base + v) rest
    | none => none

/-- A number is decimal, or hexadecimal after `0x` (30_encoding.md R80). -/
def numberValue : List Char → Option Nat
  | [] => none
  | '0' :: 'x' :: c :: rest => digitsValue 16 0 (c :: rest)
  | c :: rest => digitsValue 10 0 (c :: rest)

/-- A number, or a name of the given table. -/
def operandValue (names : List (String × Nat)) (cs : List Char) : Option Nat :=
  match names.find? fun p => p.1.toList == cs with
  | some p => some p.2
  | none => numberValue cs

/-- All operands as numbers. -/
def numbers : List (List Char) → Option (List Nat)
  | [] => some []
  | cs :: rest =>
    match numberValue cs, numbers rest with
    | some n, some ns => some (n :: ns)
    | _, _ => none

/-- A line with number operands only. -/
def numericLine (mnemonic : List Char) (ns : List Nat) : Except AsmError AsmLine :=
  if mnemonic = "CSUM.ADD".toList then
    match ns with
    | [n] => .ok (.command (.csumAdd n))
    | _ => .error .operandCount
  else if mnemonic = "CSUM.CHK".toList then
    match ns with
    | [n] => .ok (.command (.csumChk n))
    | _ => .error .operandCount
  else if mnemonic = "FP.LDD".toList then
    match ns with
    | [t, o, f] => .ok (.command (.fpLdd t o f))
    | _ => .error .operandCount
  else if mnemonic = ".word".toList then
    match ns with
    | [n] => .ok (.command (.word n))
    | _ => .error .operandCount
  else if mnemonic = "CSUM.SEED".toList then
    match ns with
    | [b] => .ok (.pseudo (.seed b))
    | _ => .error .operandCount
  else if mnemonic = "CSUM.SUM".toList then .ok (.pseudo (.sum ns))
  else if mnemonic = "CSUM.VERIFY".toList then
    match ns with
    | c :: bs => .ok (.pseudo (.verify c bs))
    | [] => .error .operandCount
  else .error .unknownMnemonic

/-- FP.SEND's line; a variant left out is SHOW (30_encoding.md R80). -/
def sendLine (ops : List (List Char)) : Except AsmError AsmLine :=
  match ops with
  | [t] =>
    match operandValue templateNumber t with
    | some n => .ok (.command (.fpSend n 0))
    | none => .error .badOperand
  | [t, v] =>
    match operandValue templateNumber t, operandValue variantNumber v with
    | some n, some k => .ok (.command (.fpSend n k))
    | _, _ => .error .badOperand
  | _ => .error .operandCount

/-- A variant operand that may be left out: SHOW then (30_encoding.md R81). -/
def optionalVariant : List (List Char) → Except AsmError Nat
  | [] => .ok 0
  | [v] =>
    match operandValue variantNumber v with
    | some k => .ok k
    | none => .error .badOperand
  | _ => .error .operandCount

/-- UPD.TEMP's line (30_encoding.md R81). -/
def updTempLine (ops : List (List Char)) : Except AsmError AsmLine :=
  match numbers (ops.take 3), optionalVariant (ops.drop 3) with
  | some [t, o, f], .ok v => .ok (.pseudo (.updTemp t o f v))
  | some _, .ok _ => .error .operandCount
  | none, _ => .error .badOperand
  | _, .error e => .error e

/-- UPD.HUM's line (30_encoding.md R81). -/
def updHumLine (ops : List (List Char)) : Except AsmError AsmLine :=
  match numbers (ops.take 2), optionalVariant (ops.drop 2) with
  | some [t, o], .ok v => .ok (.pseudo (.updHum t o v))
  | some _, .ok _ => .error .operandCount
  | none, _ => .error .badOperand
  | _, .error e => .error e

/-- A line with no operand. -/
def bareLine (mnemonic : List Char) : Option AsmLine :=
  if mnemonic = "NOP".toList then some (.command .nop)
  else if mnemonic = "CSUM.CLR".toList then some (.command .csumClr)
  else if mnemonic = "STAT.CLR".toList then some (.command .statClr)
  else if mnemonic = "UPD.FLIP".toList then some (.pseudo .updFlip)
  else none

/-- A line of text: a mnemonic, then operands separated by commas (30_encoding.md R80). -/
def parseLine (text : List Char) : Except AsmError AsmLine :=
  let line := trimBlanks text
  let mnemonic := line.takeWhile fun c => !isBlank c
  let rest := trimBlanks (line.dropWhile fun c => !isBlank c)
  let ops := if rest.isEmpty then [] else (splitCommas rest).map trimBlanks
  match bareLine mnemonic with
  | some l => if ops.isEmpty then .ok l else .error .operandCount
  | none =>
    if mnemonic = "FP.SEND".toList then sendLine ops
    else if mnemonic = "UPD.TEMP".toList then updTempLine ops
    else if mnemonic = "UPD.HUM".toList then updHumLine ops
    else
      match numbers ops with
      | some ns => numericLine mnemonic ns
      | none => .error .badOperand

/-- The words of a line of text (30_encoding.md R80, R81). -/
def assembleText (line : String) : Except AsmError (List Word) :=
  match parseLine line.toList with
  | .ok l => assembleLine l
  | .error e => .error e

end Sys2Proof.Machine
end

