-- ==== Sys2Proof/Machine/Frame.lean ====
section
/-! DEFINITION. The frame of a template, variant and digits as whole data: the patched template and its checksum
(30_encoding.md R82, R83; 41_packer.md R106 to R111), and the edges a command takes (70_reset_and_hazards.md R171).
The step does not use these definitions: they say what its emission must add up to. -/

namespace Sys2Proof.Machine

/-- The indices of the digit bytes of template `t` (30_encoding.md R83). -/
def digitPositions (rom : TemplateRom) (t : TemplateId) : List Nat :=
  match t.toNat with
  | 2 => [rom.numOff 2, rom.numOff 2 + 1, rom.numOff 2 + 3]
  | 3 => [rom.numOff 3, rom.numOff 3 + 1]
  | _ => []

/-- The digit bytes that stand at `digitPositions` (30_encoding.md R83; 41_packer.md R100). -/
def digitBytes (t : TemplateId) (d : Digits) : List Byte :=
  match t.toNat with
  | 2 => [asciiTens d.tens, asciiDigit d.ones, asciiDigit d.tenths]
  | 3 => [asciiTens d.tens, asciiDigit d.ones]
  | _ => []

/-- Write the bytes at the indices, pairwise. -/
def patchAll : List (Nat × Byte) → List Byte → List Byte
  | [], bs => bs
  | (i, b) :: rest, bs => patchAll rest (bs.set i b)

/-- The template with its opcode byte and digit bytes patched in (30_encoding.md R82, R83). -/
def patchedTemplate (rom : TemplateRom) (t : TemplateId) (v : Bool) (d : Digits) : List Byte :=
  if isDraw t then
    patchAll ((opcOff, rom.opcode t v) :: (digitPositions rom t).zip (digitBytes t d)) (rom.bytes t)
  else rom.bytes t

/-- The checksum of the frame: of every byte before CSO (41_packer.md R106; 40_checksum.md R90). -/
def frameChecksum (rom : TemplateRom) (t : TemplateId) (v : Bool) (d : Digits) : Byte :=
  csum (patchedTemplate rom t v d) (rom.cso t)

/-- `Frame(t, v, d)`, the bytes of a sent frame (41_packer.md R108). -/
def frame (rom : TemplateRom) (t : TemplateId) (v : Bool) (d : Digits) : List Byte :=
  (patchedTemplate rom t v d).set (rom.cso t) (frameChecksum rom t v d)

/-- K[t]: the sum mod 256 of the template bytes before CSO that are neither the opcode nor a digit (41_packer.md R111). -/
def fixedSum (rom : TemplateRom) (t : TemplateId) : Byte :=
  BitVec.ofNat 8
    ((((List.range (rom.cso t)).filter fun i => i != opcOff && !(digitPositions rom t).contains i).map fun i =>
      ((rom.bytes t).getD i 0).toNat).sum % 256)

/-- How many edges a command takes with no stall (70_reset_and_hazards.md R171). -/
def commandEdges (rom : TemplateRom) : Instr → Nat
  | .fpSend v tid => if sendLegal v tid then rom.len tid + 1 else 1
  | .nop | .csumClr | .csumAdd _ | .csumChk _ | .fpLdd _ _ _ | .statClr | .illegal _ | .illegalHigh _ => 1

end Sys2Proof.Machine
end

