-- ==== Sys2Proof/Safety.lean ====
section
/-! DEFINITION. What counts as a good state and the terms claims are stated in: the legal values and invariants of
10_state.md, what ACC holds while a frame is being sent, which commands raise an error, and kinds of input sequences. -/

namespace Sys2Proof.Machine

/-- The legal values of the state elements (10_state.md R20) with the invariants of R22 to R25. -/
structure State.Legal (rom : TemplateRom) (s : State) : Prop where
  /-- Each digit holds 0..9 (R22). -/
  digits : s.dig.tens.toNat ≤ 9 ∧ s.dig.ones.toNat ≤ 9 ∧ s.dig.tenths.toNat ≤ 9
  /-- TSEL holds 0..4 (R23). -/
  tsel : s.tsel.toNat ≤ 4
  /-- VAR is 1 only when TSEL is 2 or 3 (R24). -/
  variant : s.var = true → s.tsel = 2 ∨ s.tsel = 3
  /-- When BUSY = 0, IDX = 0 (R25). -/
  idle : s.busy = false → s.idx = 0
  /-- When BUSY = 1, IDX ≤ L[TSEL] - 1 (R25). -/
  sending : s.busy = true → s.idx.toNat + 1 ≤ rom.len s.tsel

/-- While a frame is being sent, ACC is the sum of the frame's bytes already transferred that lie before CSO
(10_state.md R36; 41_packer.md R106). -/
def State.SumTracksFrame (rom : TemplateRom) (s : State) : Prop :=
  s.busy = true → s.acc = csum (frame rom s.tsel s.var s.dig) (min s.idx.toNat (rom.cso s.tsel))

/-- The invariant of a running block. -/
structure State.Good (rom : TemplateRom) (s : State) : Prop where
  legal : s.Legal rom
  sum : s.SumTracksFrame rom

/-- The commands that raise ErrIll when they execute (60_exceptions.md R141). -/
def raisesErrIll : Instr → Prop
  | .illegal _ | .illegalHigh _ => True
  | .fpSend v tid => 5 ≤ tid.toNat ∨ (v = true ∧ (tid.toNat = 0 ∨ tid.toNat = 1 ∨ tid.toNat = 4))
  | .nop | .csumClr | .csumAdd _ | .csumChk _ | .fpLdd _ _ _ | .statClr => False

/-- The commands that raise ErrDig when they execute (60_exceptions.md R142). -/
def raisesErrDig : Instr → Prop
  | .fpLdd t o f => 10 ≤ t.toNat ∨ 10 ≤ o.toNat ∨ 10 ≤ f.toNat
  | .nop | .csumClr | .csumAdd _ | .csumChk _ | .fpSend _ _ | .statClr | .illegal _ | .illegalHigh _ => False

/-- No edge of the sequence is a reset edge. -/
def NoReset (inps : List Inputs) : Prop := ∀ inp ∈ inps, inp.rst = false

/-- How many edges of the sequence have `out_ready = 1`. -/
def readyCount (inps : List Inputs) : Nat := inps.countP fun inp => inp.outReady

/-- An edge at which the host offers `w`, with no reset. -/
def offering (w : Word) (ready : Bool) : Inputs := ⟨false, w, true, ready⟩

/-- The byte a CSUM.ADD offered at this edge adds. -/
def addend (inp : Inputs) : Option Byte :=
  if inp.cmdValid then
    match decode inp.cmd with
    | .csumAdd b => some b
    | .nop | .csumClr | .csumChk _ | .fpLdd _ _ _ | .fpSend _ _ | .statClr | .illegal _ | .illegalHigh _ => none
  else none

/-- An edge at which no CSUM.CLR and no FP.SEND is offered: none of what it may offer but CSUM.ADD writes ACC
(40_checksum.md R95). -/
def KeepsHostSum (inp : Inputs) : Prop :=
  inp.cmdValid = true → decode inp.cmd ≠ .csumClr ∧ ∀ v tid, decode inp.cmd ≠ .fpSend v tid

/-- An edge at which no command that writes ACC is offered (41_packer.md R107). -/
def KeepsAcc (inp : Inputs) : Prop :=
  inp.cmdValid = true → decode inp.cmd ≠ .csumClr ∧ (∀ b, decode inp.cmd ≠ .csumAdd b) ∧
    ∀ v tid, decode inp.cmd = .fpSend v tid → sendLegal v tid = false

end Sys2Proof.Machine
end

