-- ==== Sys2Proof/Certificates/Slice0/Obligations.lean ====
section
/-! DEFINITION. The statements for the provers.
A statement over `rom : WellFormedRom` holds for every TEMPLATE_ROM that passes W1 to W7.
"The state after" is always written out as a record update, so the equation says the frame too: every state element not
named in the update, the two fields of the model's own among them, is unchanged. -/

open Sys2Proof Sys2Proof.Machine

/-! ### Reset and the status view -/

/-- 10_state.md R37: the reset value of every state element, of STATUS and of the outputs. -/
def Obligations.ResetStateHoldsTheResetValues : Prop :=
  (State.reset.acc = 0x00 ∧ State.reset.dig.tens = 0 ∧ State.reset.dig.ones = 0 ∧ State.reset.dig.tenths = 0 ∧
    State.reset.tsel = 0 ∧ State.reset.var = false ∧ State.reset.idx = 0 ∧ State.reset.busy = false ∧
    State.reset.matched = false ∧ State.reset.errIll = false ∧ State.reset.errDig = false) ∧
  State.reset.status = 0x00 ∧
  ∀ rom : WellFormedRom, outputs rom.rom false State.reset =
    { cmdReady := true, outData := some 0x00, outValid := false, outLast := false, accO := 0x00, statusO := 0x00 }

/-- 70_reset_and_hazards.md R160: any positive number of reset edges, whatever the other inputs and the state, gives the
reset state, and at a reset edge no command is accepted and no byte transfers.
That the model's own fields pending and draws stay is the model's choice (log 3). -/
def Obligations.ResetEdgesGiveTheResetState : Prop :=
  ∀ (rom : WellFormedRom) (inp : Inputs) (inps : List Inputs) (s : State), (∀ j ∈ inp :: inps, j.rst = true) →
    runEdges rom (inp :: inps) s = .next { State.reset with pending := s.pending, draws := s.draws } ∧
    emitted rom (inp :: inps) s = [] ∧ accepts inp s = false ∧ transferred rom.rom inp s = none

/-- 10_state.md R30: STATUS bit by bit. -/
def Obligations.StatusViewIsTheFourFlags : Prop :=
  ∀ s : State,
    s.status.toNat = s.busy.toNat + 2 * s.matched.toNat + 4 * s.errIll.toNat + 8 * s.errDig.toNat ∧
    s.status.getLsbD 0 = s.busy ∧ s.status.getLsbD 1 = s.matched ∧ s.status.getLsbD ErrorCause.errIll.code = s.errIll ∧
    s.status.getLsbD ErrorCause.errDig.code = s.errDig ∧ s.status.extractLsb' 4 4 = 0

/-- 10_state.md R33: the outputs, the two handshakes, and that the two ports are never active together.
`out_last` is stated for the template ids that have an L; for a reserved id in TSEL it is the model's choice (log 18). -/
def Obligations.OutputsAndHandshakes : Prop :=
  ∀ (rom : WellFormedRom) (inp : Inputs) (s : State),
    ((outputs rom.rom inp.rst s).cmdReady = true ↔ s.busy = false ∧ inp.rst = false) ∧
    ((outputs rom.rom inp.rst s).outValid = true ↔ s.busy = true ∧ inp.rst = false) ∧
    ((outputs rom.rom inp.rst s).outValid = true →
      (outputs rom.rom inp.rst s).outData = byteAt rom.rom s.tsel s.var s.dig s.acc s.idx) ∧
    ((outputs rom.rom inp.rst s).outValid = false → (outputs rom.rom inp.rst s).outData = some 0x00) ∧
    (s.tsel.toNat ≤ 4 → ((outputs rom.rom inp.rst s).outLast = true ↔
      (outputs rom.rom inp.rst s).outValid = true ∧ s.idx.toNat = rom.rom.len s.tsel - 1)) ∧
    (outputs rom.rom inp.rst s).accO = s.acc ∧ (outputs rom.rom inp.rst s).statusO = s.status ∧
    ¬((outputs rom.rom inp.rst s).cmdReady = true ∧ (outputs rom.rom inp.rst s).outValid = true) ∧
    (accepts inp s = true ↔ inp.cmdValid = true ∧ (outputs rom.rom inp.rst s).cmdReady = true) ∧
    (∀ b, transferred rom.rom inp s = some b ↔
      (outputs rom.rom inp.rst s).outValid = true ∧ inp.outReady = true ∧ (outputs rom.rom inp.rst s).outData = some b)

/-! ### Encoding -/

/-- Decode and encode agree on every command, with every operand at every value (30_encoding.md R71 to R77).
For the ILLEGAL constructors, which carry their word, this rests on the model's choice to carry it (DESIGN CHOICE, log 7). -/
def Obligations.DecodeOfEncodeIsTheCommand : Prop := ∀ i : Instr, i.WellFormed → decode (encode i) = i

/-- Every one of the 65536 words decodes, and to a well-formed command (30_encoding.md R76), whose word it is.
For a word of the seven commands that follows from R75 and R76: no bit of it is dropped.
For an ILLEGAL word it is the model's choice (DESIGN CHOICE, log 7): its constructors carry the word, where the ILLEGAL of R76
carries nothing and R132 ignores the bits. -/
def Obligations.EncodeOfDecodeIsTheWord : Prop := ∀ w : Word, (decode w).WellFormed ∧ encode (decode w) = w

/-- 30_encoding.md R75 to R77: no two rows of the opcode map cover one word; a covered word decodes to its row's command; a
word is ILLEGAL exactly when its OP is 0x7..0xF or a reserved operand bit of its format is 1. -/
def Obligations.OpcodeMapDecidesEveryWord : Prop :=
  opcodeMap.Pairwise (fun r r' => ∀ w : Word, ¬(r.covers w = true ∧ r'.covers w = true)) ∧
  (∀ (w : Word) (r : OpcodeRow), r ∈ opcodeMap → r.covers w = true → (decode w).mnemonic = r.mnemonic) ∧
  (∀ w : Word, (∀ r ∈ opcodeMap, r.covers w = false) → (decode w).mnemonic = "ILLEGAL") ∧
  (∀ w : Word, (decode w).mnemonic = "ILLEGAL" ↔
    7 ≤ w.toNat / 4096 ∨
    ((w.toNat / 4096 = 0 ∨ w.toNat / 4096 = 1 ∨ w.toNat / 4096 = 6) ∧ w.toNat % 4096 ≠ 0) ∨
    ((w.toNat / 4096 = 2 ∨ w.toNat / 4096 = 3) ∧ w.toNat / 256 % 16 ≠ 0) ∨
    (w.toNat / 4096 = 5 ∧ w.toNat / 16 % 256 ≠ 0))

/-- Words written out from the bit patterns of 30_encoding.md R75 and the table of 95_test_vectors.md section 3.3.
That an ILLEGAL carries its word is the model's choice (log 7). -/
def Obligations.WrittenOutWordsDecode : Prop :=
  decode 0b0000000000000000#16 = .nop ∧ decode 0b0001000000000000#16 = .csumClr ∧
  decode 0b0010000011111111#16 = .csumAdd 0xFF ∧ decode 0b0011000001011000#16 = .csumChk 0x58 ∧
  decode 0b0100000110000101#16 = .fpLdd 1 8 5 ∧ decode 0b0101000000001010#16 = .fpSend true 2 ∧
  decode 0b0110000000000000#16 = .statClr ∧ decode 0b0010000100000000#16 = .illegal 0x2100 ∧
  decode 0b0111000000000000#16 = .illegal 0x7000 ∧ decode 0b1000000000000000#16 = .illegalHigh 0x8000

/-! ### What each command does -/

/-- 42_system.md R130. -/
def Obligations.NopChangesNothing : Prop :=
  (∀ w : Word, w.toNat / 4096 = 0 → decode w = if w = 0x0000 then .nop else .illegal w) ∧
  ∀ s : State, exec .nop s = .next s

/-- 40_checksum.md R91. -/
def Obligations.CsumClrClearsTheAccumulator : Prop :=
  (∀ w : Word, w.toNat / 4096 = 1 → decode w = if w = 0x1000 then .csumClr else .illegal w) ∧
  ∀ s : State, exec .csumClr s = .next { s with acc := 0x00 }

/-- 40_checksum.md R92: the sum is modulo 256 and nothing else is written, no carry either. -/
def Obligations.CsumAddAddsModulo256 : Prop :=
  (∀ w : Word, w.toNat / 4096 = 2 → decode w =
    if w.toNat / 256 % 16 = 0 then .csumAdd (BitVec.ofNat 8 (w.toNat % 256)) else .illegal w) ∧
  ∀ (imm8 : Byte) (s : State), ∃ t : State, exec (.csumAdd imm8) s = .next t ∧
    t.acc.toNat = (s.acc.toNat + imm8.toNat) % 256 ∧ t = { s with acc := t.acc }

/-- 40_checksum.md R93: MATCH is written, 1 exactly when ACC equals the operand, and nothing else. -/
def Obligations.CsumChkRecordsTheComparison : Prop :=
  (∀ w : Word, w.toNat / 4096 = 3 → decode w =
    if w.toNat / 256 % 16 = 0 then .csumChk (BitVec.ofNat 8 (w.toNat % 256)) else .illegal w) ∧
  ∀ (imm8 : Byte) (s : State), ∃ t : State, exec (.csumChk imm8) s = .next t ∧
    (t.matched = true ↔ s.acc.toNat = imm8.toNat) ∧ t = { s with matched := t.matched }

/-- 41_packer.md R101: all three digits are loaded, or ERR_DIG is set and nothing else changes. -/
def Obligations.FpLddLoadsAllDigitsOrNone : Prop :=
  (∀ w : Word, w.toNat / 4096 = 4 → decode w = .fpLdd (BitVec.ofNat 4 (w.toNat / 256 % 16))
    (BitVec.ofNat 4 (w.toNat / 16 % 16)) (BitVec.ofNat 4 (w.toNat % 16))) ∧
  ∀ (t o f : Digit) (s : State),
    (t.toNat ≤ 9 ∧ o.toNat ≤ 9 ∧ f.toNat ≤ 9 →
      exec (.fpLdd t o f) s = .next { s with dig := { tens := t, ones := o, tenths := f } }) ∧
    (9 < t.toNat ∨ 9 < o.toNat ∨ 9 < f.toNat → exec (.fpLdd t o f) s = .next { s with errDig := true })

/-- 41_packer.md R102: a legal FP.SEND starts a frame, whose first byte STX is presented in the next cycle; an illegal one
sets ERR_ILL and changes nothing else. -/
def Obligations.FpSendStartsAFrameOrRaises : Prop :=
  (∀ w : Word, w.toNat / 4096 = 5 → decode w =
    if w.toNat / 16 % 256 = 0 then .fpSend (w.toNat / 8 % 2 == 1) (BitVec.ofNat 3 (w.toNat % 8)) else .illegal w) ∧
  ∀ (rom : WellFormedRom) (v : Bool) (tid : TemplateId) (s : State),
    (tid.toNat ≤ 4 ∧ (v = false ∨ tid.toNat = 2 ∨ tid.toNat = 3) →
      ∃ t : State, exec (.fpSend v tid) s = .next t ∧
        t = { s with tsel := tid, var := v, idx := 0, acc := 0x00, busy := true } ∧
        (outputs rom.rom false t).outValid = true ∧ (outputs rom.rom false t).outData = some rom.rom.stx) ∧
    (5 ≤ tid.toNat ∨ (v = true ∧ (tid.toNat = 0 ∨ tid.toNat = 1 ∨ tid.toNat = 4)) →
      exec (.fpSend v tid) s = .next { s with errIll := true })

/-- 42_system.md R131. -/
def Obligations.StatClrClearsTheStickyFlags : Prop :=
  (∀ w : Word, w.toNat / 4096 = 6 → decode w = if w = 0x6000 then .statClr else .illegal w) ∧
  ∀ s : State, exec .statClr s = .next { s with errIll := false, errDig := false }

/-- 42_system.md R132: an illegal word, of either row of the table, is consumed, sets ERR_ILL and does nothing else. -/
def Obligations.IllegalWordsOnlySetErrIll : Prop :=
  (∀ w : Word, Word.isIllegal w = true → decode w = .illegal w ∨ decode w = .illegalHigh w) ∧
  ∀ (w : Word) (s : State),
    exec (.illegal w) s = .next { s with errIll := true } ∧ exec (.illegalHigh w) s = .next { s with errIll := true }

/-! ### Errors -/

/-- 60_exceptions.md R140 to R143, R146: which commands raise which error, that a command raises at most one, that the
flags are sticky but for STAT.CLR, and that a raising command writes its flag only. -/
def Obligations.ErrorFlagsRecordExactlyTheErrors : Prop :=
  ∀ (i : Instr) (s : State), ∃ t : State, exec i s = .next t ∧
    (t.errIll = true ↔ raisesErrIll i ∨ (s.errIll = true ∧ i ≠ .statClr)) ∧
    (t.errDig = true ↔ raisesErrDig i ∨ (s.errDig = true ∧ i ≠ .statClr)) ∧
    ¬(raisesErrIll i ∧ raisesErrDig i) ∧
    (raisesErrIll i → t = { s with errIll := true }) ∧ (raisesErrDig i → t = { s with errDig := true })

/-- 60_exceptions.md R143, decision D22: the error flags influence nothing. A run from a state with other error flags ends
in a state that differs in those flags at most, and emits the same bytes. -/
def Obligations.ErrorFlagsInfluenceNothing : Prop :=
  ∀ (rom : WellFormedRom) (inps : List Inputs) (s t : State) (ill dig : Bool), runEdges rom inps s = .next t →
    ∃ u : State, runEdges rom inps { s with errIll := ill, errDig := dig } = .next u ∧
      { u with errIll := t.errIll, errDig := t.errDig } = t ∧
      emitted rom inps { s with errIll := ill, errDig := dig } = emitted rom inps s

/-- 10_state.md R20, the column "written by": what a command may change, element by element. -/
def Obligations.CommandsWriteOnlyTheirElements : Prop :=
  ∀ (i : Instr) (s t : State), exec i s = .next t →
    (t.acc ≠ s.acc → i.mnemonic = "CSUM.CLR" ∨ i.mnemonic = "CSUM.ADD" ∨ i.mnemonic = "FP.SEND") ∧
    (t.dig ≠ s.dig → i.mnemonic = "FP.LDD") ∧
    ((t.tsel, t.var, t.idx, t.busy) ≠ (s.tsel, s.var, s.idx, s.busy) → i.mnemonic = "FP.SEND") ∧
    (t.matched ≠ s.matched → i.mnemonic = "CSUM.CHK") ∧
    (t.errIll ≠ s.errIll → i.mnemonic = "ILLEGAL" ∨ i.mnemonic = "FP.SEND" ∨ i.mnemonic = "STAT.CLR") ∧
    (t.errDig ≠ s.errDig → i.mnemonic = "FP.LDD" ∨ i.mnemonic = "STAT.CLR") ∧
    t.pending = s.pending ∧ t.draws = s.draws

/-! ### The edge and the step -/

/-- 41_packer.md R104: the transition at a rising edge, case by case.
That reset leaves the model's own fields pending and draws is the model's choice (log 3). -/
def Obligations.EdgeTakesTheTransitionOfR104 : Prop :=
  ∀ (rom : WellFormedRom) (inp : Inputs) (s : State),
    (inp.rst = true → edge rom inp s = .next { State.reset with pending := s.pending, draws := s.draws }) ∧
    (inp.rst = false → s.busy = true → inp.outReady = false → edge rom inp s = .next s) ∧
    (inp.rst = false → s.busy = true → inp.outReady = true →
      ∀ b, byteAt rom.rom s.tsel s.var s.dig s.acc s.idx = some b →
        transferred rom.rom inp s = some b ∧
        edge rom inp s = .next { s with
          acc := if s.idx.toNat < rom.rom.cso s.tsel then BitVec.ofNat 8 (s.acc.toNat + b.toNat) else s.acc
          busy := if s.idx.toNat = rom.rom.len s.tsel - 1 then false else true
          idx := if s.idx.toNat = rom.rom.len s.tsel - 1 then 0 else BitVec.ofNat 6 (s.idx.toNat + 1) }) ∧
    (inp.rst = false → s.busy = false → inp.cmdValid = true → edge rom inp s = exec (decode inp.cmd) s) ∧
    (inp.rst = false → s.busy = false → inp.cmdValid = false → edge rom inp s = .next s)

/-- A step runs the decoded command: when the next input draw offers a word to an idle block, the step is the command's
execution with that draw taken; and `withFetchWord` makes the next step run exactly the given word.
That draws are listed in the state, and what the step samples when none is left, is the model's choice (log 3).
What `withFetchWord` writes (the next draw's command, BUSY and IDX of a busy block) is the model's choice (log 5). -/
def Obligations.StepRunsTheDecodedCommand : Prop :=
  (∀ (s : State) (inp : Inputs) (rest : List Inputs) (i : Instr), s.pending = inp :: rest → inp.rst = false →
    s.busy = false → inp.cmdValid = true → decode inp.cmd = i → step s = exec i { s with pending := rest }) ∧
  (∀ (s : State) (inp : Inputs) (rest : List Inputs), s.pending = inp :: rest →
    step s = edge Config.templateRom inp { s with pending := rest }) ∧
  (∀ s : State, s.pending = [] →
    step s = edge Config.templateRom (Config.freeInputs s.draws) { s with draws := s.draws + 1 }) ∧
  (∀ (s : State) (w : Word), step (s.withFetchWord 16 w.toNat) = exec (decode w)
    { s with pending := s.pending.tail, busy := false, idx := if s.busy = true then 0 else s.idx })

/-- The machine the host runs follows the input draws its state holds: n of its steps are the edges of the first n draws.
That State holds draws as a list, earliest first, of which a step takes one, is the model's choice (log 3). -/
def Obligations.CoreRunFollowsTheDraws : Prop :=
  ∀ (n : Nat) (s : State), n ≤ s.pending.length →
    Host.Core.run Sys2Proof.core n s =
      runEdges Config.templateRom (s.pending.take n) { s with pending := s.pending.drop n }

/-- 70_reset_and_hazards.md R164: while BUSY = 1 no command is accepted, and what the host offers has no effect. -/
def Obligations.BusyBlockIgnoresTheCommandPort : Prop :=
  ∀ (rom : WellFormedRom) (inp : Inputs) (s : State) (w : Word) (valid : Bool), s.busy = true →
    accepts inp s = false ∧ (outputs rom.rom inp.rst s).cmdReady = false ∧
    edge rom { inp with cmd := w, cmdValid := valid } s = edge rom inp s ∧
    transferred rom.rom { inp with cmd := w, cmdValid := valid } s = transferred rom.rom inp s

/-- 10_state.md R35, 70_reset_and_hazards.md R170: for as long as the sink is not ready, and with no reset, nothing changes,
whatever the host does: the presented byte is stable and the block hangs. -/
def Obligations.StalledBlockChangesNothing : Prop :=
  ∀ (rom : WellFormedRom) (inps : List Inputs) (s : State), s.busy = true → NoReset inps →
    (∀ inp ∈ inps, inp.outReady = false) → runEdges rom inps s = .next s ∧ emitted rom inps s = []

/-! ### Invariants -/

/-- The reset state meets the invariant, with every ROM. -/
def Obligations.ResetStateIsGood : Prop := ∀ rom : WellFormedRom, State.Good rom.rom State.reset

/-- 10_state.md R22 to R25 and R36: the legal values, the IDX invariants, and that ACC tracks the sum of the frame being sent
are kept by every edge, with every ROM and every inputs, and by every step. -/
def Obligations.EveryStepKeepsTheInvariant : Prop :=
  (∀ (rom : WellFormedRom) (inp : Inputs) (s t : State), State.Good rom.rom s → edge rom inp s = .next t →
    State.Good rom.rom t) ∧
  ∀ s t : State, State.Good Config.templateRom.rom s → step s = .next t → State.Good Config.templateRom.rom t

/-- 60_exceptions.md R153 and 20_memory.md R50: from a legal state nothing can stop the block: every edge and every step
answers a next state. -/
def Obligations.LegalStatesNeverStop : Prop :=
  (∀ (rom : WellFormedRom) (inp : Inputs) (s : State), State.Legal rom.rom s → ∃ t, edge rom inp s = .next t) ∧
  ∀ s : State, State.Legal Config.templateRom.rom s → ∃ t, step s = .next t

/-- Where the model stops: a fault exactly at a transfer from a ROM address that is not populated (20_memory.md R50; that
such an access stops is the model's choice, log 6), and never a refusal. -/
def Obligations.OnlyAnUnpopulatedReadFaults : Prop :=
  ∀ (rom : WellFormedRom) (inp : Inputs) (s : State),
    (edge rom inp s = .fault .unpopulatedRomRead ↔
      inp.rst = false ∧ s.busy = true ∧ inp.outReady = true ∧
        ¬(s.tsel.toNat ≤ 4 ∧ s.idx.toNat < rom.rom.len s.tsel)) ∧
    ∀ r, edge rom inp s ≠ .refused r

/-- 20_memory.md R52, decision D28: a ROM that fails any of W1 to W7 is refused, and one that passes them all runs. -/
def Obligations.IllFormedRomIsRefused : Prop :=
  ∀ (rom : TemplateRom) (inp : Inputs) (s : State),
    (rom.w1 = false ∨ rom.w2 = false ∨ rom.w3 = false ∨ rom.w4 = false ∨ rom.w5 = false ∨ rom.w6 = false ∨
      rom.w7 = false → edgeWithRom rom inp s = .refused .illFormedRom) ∧
    (rom.w1 = true ∧ rom.w2 = true ∧ rom.w3 = true ∧ rom.w4 = true ∧ rom.w5 = true ∧ rom.w6 = true ∧ rom.w7 = true →
      State.Legal rom s → ∃ t, edgeWithRom rom inp s = .next t)

/-! ### The frame -/

/-- 41_packer.md R100: the digit encoding of the BCD digits. -/
def Obligations.DigitsAreSentInAscii : Prop :=
  ∀ d : Digit, d.toNat ≤ 9 →
    (asciiDigit d).toNat = 0x30 + d.toNat ∧
    (d.toNat = 0 → (asciiTens d).toNat = 0x20) ∧ (d.toNat ≠ 0 → (asciiTens d).toNat = 0x30 + d.toNat)

/-- 41_packer.md R103: the byte multiplexer at every populated address; each condition decides alone, so their order does
not matter. -/
def Obligations.ByteAtSelectsByIndexAlone : Prop :=
  ∀ (rom : WellFormedRom) (t : TemplateId) (v : Bool) (d : Digits) (acc : Byte) (i : Index),
    i.toNat < rom.rom.len t →
    (i.toNat = rom.rom.cso t → byteAt rom.rom t v d acc i = some acc) ∧
    ((t = 2 ∨ t = 3) → i.toNat = 4 →
      byteAt rom.rom t v d acc i = some (if v = false then (rom.rom.draw t).opcShow else (rom.rom.draw t).opcBack)) ∧
    ((t = 2 ∨ t = 3) → i.toNat = rom.rom.numOff t → byteAt rom.rom t v d acc i = some (asciiTens d.tens)) ∧
    ((t = 2 ∨ t = 3) → i.toNat = rom.rom.numOff t + 1 → byteAt rom.rom t v d acc i = some (asciiDigit d.ones)) ∧
    (t = 2 → i.toNat = rom.rom.numOff 2 + 3 → byteAt rom.rom t v d acc i = some (asciiDigit d.tenths)) ∧
    (i.toNat ≠ rom.rom.cso t →
      ((t = 2 ∨ t = 3) → i.toNat ≠ 4 ∧ i.toNat ≠ rom.rom.numOff t ∧ i.toNat ≠ rom.rom.numOff t + 1) →
      (t = 2 → i.toNat ≠ rom.rom.numOff 2 + 3) →
      ∃ b, rom.rom.read t i = some b ∧ byteAt rom.rom t v d acc i = some b)

/-- 30_encoding.md R82, R83: the layout of every frame, its checksum byte the sum of all bytes before it. -/
def Obligations.FrameHasTheLayout : Prop :=
  ∀ (rom : WellFormedRom) (t : TemplateId) (v : Bool) (d : Digits), t.toNat ≤ 4 →
    (frame rom.rom t v d).length = rom.rom.len t ∧
    (frame rom.rom t v d)[0]? = some rom.rom.stx ∧
    (frame rom.rom t v d)[rom.rom.len t - 2]? = some (csum (frame rom.rom t v d) (rom.rom.len t - 2)) ∧
    (frame rom.rom t v d)[rom.rom.len t - 1]? = some 0x0D ∧
    (t = 2 ∨ t = 3 →
      (frame rom.rom t v d)[4]? = some (rom.rom.opcode t v) ∧
      (frame rom.rom t v d)[rom.rom.numOff t]? = some (asciiTens d.tens) ∧
      (frame rom.rom t v d)[rom.rom.numOff t + 1]? = some (asciiDigit d.ones)) ∧
    (t = 2 →
      (frame rom.rom t v d)[rom.rom.numOff t + 2]? = some 0x2E ∧
      (frame rom.rom t v d)[rom.rom.numOff t + 3]? = some (asciiDigit d.tenths)) ∧
    (∀ j, j ≠ rom.rom.len t - 2 →
      ((t = 2 ∨ t = 3) → j ≠ 4 ∧ j ≠ rom.rom.numOff t ∧ j ≠ rom.rom.numOff t + 1) →
      (t = 2 → j ≠ rom.rom.numOff t + 3) → (frame rom.rom t v d)[j]? = (rom.rom.bytes t)[j]?)

/-- 41_packer.md R105 to R108: from any state, with any stalls, a legal FP.SEND sends exactly `Frame(t, v, d)`, in order and
each byte once, and leaves ACC at its checksum and the block idle. -/
def Obligations.SentFrameIsThePatchedTemplate : Prop :=
  ∀ (rom : WellFormedRom) (s s0 : State) (v : Bool) (tid : TemplateId) (inps : List Inputs) (last : Inputs),
    sendLegal v tid = true → exec (.fpSend v tid) s = .next s0 → NoReset (inps ++ [last]) → last.outReady = true →
    readyCount inps + 1 = rom.rom.len tid →
    emitted rom (inps ++ [last]) s0 = frame rom.rom tid v s.dig ∧
    runEdges rom (inps ++ [last]) s0 =
      .next { s0 with acc := frameChecksum rom.rom tid v s.dig, busy := false, idx := 0 }

/-- 41_packer.md R107: once a frame has been sent, ACC holds the checksum byte that was sent, and keeps it through any edges
that bring no reset and no command that writes ACC; `acc_o` and CSUM.CHK can read it. -/
def Obligations.AccumulatorKeepsTheFrameChecksum : Prop :=
  ∀ (rom : WellFormedRom) (s s0 : State) (v : Bool) (tid : TemplateId) (inps more : List Inputs) (last : Inputs),
    sendLegal v tid = true → exec (.fpSend v tid) s = .next s0 → NoReset (inps ++ [last]) → last.outReady = true →
    readyCount inps + 1 = rom.rom.len tid → NoReset more → (∀ inp ∈ more, KeepsAcc inp) →
    ∃ t, runEdges rom (inps ++ [last] ++ more) s0 = .next t ∧ t.busy = false ∧
      (emitted rom (inps ++ [last]) s0)[rom.rom.cso tid]? = some t.acc ∧ (outputs rom.rom false t).accO = t.acc ∧
      ∀ b, ∃ u, exec (.csumChk b) t = .next u ∧ (u.matched = true ↔ b = t.acc)

/-- 10_state.md R36, 70_reset_and_hazards.md R165: part of the way through a frame the sink has the frame's first bytes, IDX
counts them, and `acc_o` shows the sum of those before CSO. -/
def Obligations.PartOfAFrameIsItsPrefix : Prop :=
  ∀ (rom : WellFormedRom) (s s0 : State) (v : Bool) (tid : TemplateId) (inps : List Inputs),
    sendLegal v tid = true → exec (.fpSend v tid) s = .next s0 → NoReset inps → readyCount inps < rom.rom.len tid →
    emitted rom inps s0 = (frame rom.rom tid v s.dig).take (readyCount inps) ∧
    runEdges rom inps s0 = .next { s0 with
      acc := csum (frame rom.rom tid v s.dig) (min (readyCount inps) (rom.rom.cso tid))
      idx := BitVec.ofNat 6 (readyCount inps) }

/-- 70_reset_and_hazards.md R161: a reset edge inside a frame truncates it: the sink has a proper prefix, without the CR and,
up to CSO, without the checksum, and the block is in the reset state.
That reset leaves the model's own fields pending and draws is the model's choice (log 3). -/
def Obligations.ResetTruncatesTheFrame : Prop :=
  ∀ (rom : WellFormedRom) (s s0 : State) (v : Bool) (tid : TemplateId) (inps : List Inputs) (r : Inputs),
    sendLegal v tid = true → exec (.fpSend v tid) s = .next s0 → NoReset inps → readyCount inps < rom.rom.len tid →
    r.rst = true →
    emitted rom (inps ++ [r]) s0 = (frame rom.rom tid v s.dig).take (readyCount inps) ∧
    (emitted rom (inps ++ [r]) s0).length < rom.rom.len tid ∧
    runEdges rom (inps ++ [r]) s0 = .next { State.reset with pending := s.pending, draws := s.draws }

/-- 41_packer.md R108: the bytes of a sent frame depend on TID, V, DIG and the ROM alone: not on any other state before the
FP.SEND, not on the stalls, not on what the host offers meanwhile.
With L[t] ready edges that is the whole sent frame; with fewer, as much of it as has left. -/
def Obligations.SameDigitsSameFrame : Prop :=
  ∀ (rom : WellFormedRom) (s s' s0 s0' : State) (v : Bool) (tid : TemplateId) (inps inps' : List Inputs),
    sendLegal v tid = true → s.dig = s'.dig → exec (.fpSend v tid) s = .next s0 → exec (.fpSend v tid) s' = .next s0' →
    NoReset inps → NoReset inps' → readyCount inps = readyCount inps' → readyCount inps ≤ rom.rom.len tid →
    emitted rom inps s0 = emitted rom inps' s0'

/-- 41_packer.md R109: the two variants of a draw frame differ at the opcode and at the checksum at most, and by how much. -/
def Obligations.VariantsDifferInOpcodeAndChecksum : Prop :=
  ∀ (rom : WellFormedRom) (t : TemplateId) (d : Digits), t = 2 ∨ t = 3 →
    (∀ j, j ≠ 4 → j ≠ rom.rom.cso t → (frame rom.rom t false d)[j]? = (frame rom.rom t true d)[j]?) ∧
    (frame rom.rom t false d)[4]? = some (rom.rom.draw t).opcShow ∧
    (frame rom.rom t true d)[4]? = some (rom.rom.draw t).opcBack ∧
    (rom.rom.draw t).opcShow ≠ (rom.rom.draw t).opcBack ∧
    frameChecksum rom.rom t true d =
      frameChecksum rom.rom t false d + ((rom.rom.draw t).opcBack - (rom.rom.draw t).opcShow)

/-- 41_packer.md R110: the clear and flip frames are constants of the ROM. -/
def Obligations.ClearAndFlipFramesAreConstant : Prop :=
  ∀ (rom : WellFormedRom) (t : TemplateId) (v : Bool) (d : Digits), t = 0 ∨ t = 1 ∨ t = 4 →
    (∀ j, j ≠ rom.rom.cso t → (frame rom.rom t v d)[j]? = (rom.rom.bytes t)[j]?) ∧
    (frame rom.rom t v d)[rom.rom.cso t]? = some (csum (rom.rom.bytes t) (rom.rom.cso t))

/-- 41_packer.md R111: the checksum of a draw frame in closed form, and the step of 0x11 that tens blanking makes. -/
def Obligations.DrawChecksumInClosedForm : Prop :=
  ∀ (rom : WellFormedRom) (v : Bool) (d : Digits),
    frameChecksum rom.rom 2 v d = fixedSum rom.rom 2 + rom.rom.opcode 2 v + asciiTens d.tens + asciiDigit d.ones +
      asciiDigit d.tenths ∧
    frameChecksum rom.rom 3 v d = fixedSum rom.rom 3 + rom.rom.opcode 3 v + asciiTens d.tens + asciiDigit d.ones ∧
    ∀ t : TemplateId, t = 2 ∨ t = 3 →
      frameChecksum rom.rom t v { d with tens := 1 } = frameChecksum rom.rom t v { d with tens := 0 } + 0x11

/-! ### The checksum -/

/-- 40_checksum.md R94: wraparound, locality, order independence, what one changed byte does to the checksum, and which two
changes it does not detect.
Where a clause allows n beyond the length of s, csum's value there is the model's choice (log 17). -/
def Obligations.ChecksumLaws : Prop :=
  (∀ (s : List Byte) (b : Byte), (csum (s ++ [b]) (s.length + 1)).toNat = ((csum s s.length).toNat + b.toNat) % 256) ∧
  (∀ (s s' : List Byte) (n : Nat), s.take n = s'.take n → csum s n = csum s' n) ∧
  (∀ s s' : List Byte, s.Perm s' → csum s s.length = csum s' s'.length) ∧
  (∀ (s : List Byte) (n j : Nat) (a b : Byte), j < n → s[j]? = some a →
    csum (s.set j b) n = csum s n + (b - a) ∧ (a ≠ b → csum (s.set j b) n ≠ csum s n)) ∧
  (∀ (s : List Byte) (n j k : Nat) (a b a' b' : Byte), j < n → k < n → j ≠ k → s[j]? = some a → s[k]? = some a' →
    (csum ((s.set j b).set k b') n = csum s n ↔ (b - a) + (b' - a') = 0))

/-- 40_checksum.md R95: after CSUM.CLR, ACC is the checksum of the bytes CSUM.ADD was given, whatever other commands but
CSUM.CLR and FP.SEND, and whatever idle edges, stand between. -/
def Obligations.AccumulatorComputesTheChecksum : Prop :=
  ∀ (rom : WellFormedRom) (s : State) (first : Inputs) (inps : List Inputs), accepts first s = true →
    decode first.cmd = .csumClr → NoReset inps → (∀ inp ∈ inps, KeepsHostSum inp) →
    ∃ t, runEdges rom (first :: inps) s = .next t ∧ t.busy = false ∧
      t.acc = csum (inps.filterMap addend) (inps.filterMap addend).length

/-- 30_encoding.md R81 with 40_checksum.md R93 and R95: the words of CSUM.VERIFY decide whether c is the checksum of the
bytes, and change ACC and MATCH only. -/
def Obligations.VerifyLineDecidesTheChecksum : Prop :=
  ∀ (rom : WellFormedRom) (s : State) (c : Byte) (bs : List Byte) (ready : Bool), s.busy = false →
    ∃ ws, assembleLine (.pseudo (.verify c.toNat (bs.map BitVec.toNat))) = .ok ws ∧ ws.length = bs.length + 2 ∧
      runEdges rom (ws.map fun w => offering w ready) s =
        .next { s with acc := csum bs bs.length, matched := decide (csum bs bs.length = c) }

/-- 30_encoding.md R80: an assembler refuses an operand out of its field's range, never truncates it, and what it assembles
decodes to the command written, with every operand the number written.
That a variant is a number, and one above 1 is refused as out of range, is the model's choice (log 13): R80 lists imm8, digit
and TID. -/
def Obligations.AssemblerRefusesOutOfRange : Prop :=
  ∀ c : AsmCommand,
    (∀ w, assembleCommand c = .ok w → (∃ i, commandInstr c = .ok i ∧ decode w = i) ∧
      match c with
      | .nop => decode w = .nop
      | .csumClr => decode w = .csumClr
      | .csumAdd n => ∃ imm8, decode w = .csumAdd imm8 ∧ imm8.toNat = n
      | .csumChk n => ∃ imm8, decode w = .csumChk imm8 ∧ imm8.toNat = n
      | .fpLdd tens ones tenths => ∃ t o f, decode w = .fpLdd t o f ∧ t.toNat = tens ∧ o.toNat = ones ∧ f.toNat = tenths
      | .fpSend template variant => ∃ v tid, decode w = .fpSend v tid ∧ v.toNat = variant ∧ tid.toNat = template
      | .statClr => decode w = .statClr
      | .word n => w.toNat = n) ∧
    (assembleCommand c = .error .outOfRange ↔
      match c with
      | .nop | .csumClr | .statClr => False
      | .csumAdd n | .csumChk n => 255 < n
      | .fpLdd t o f => 15 < t ∨ 15 < o ∨ 15 < f
      | .fpSend t v => 7 < t ∨ 1 < v
      | .word n => 65535 < n)

/-! ### Timing and progress -/

/-- 70_reset_and_hazards.md R171: with the sink always ready a command occupies exactly its number of edges: the block is
busy before that many and idle after. -/
def Obligations.CommandsTakeTheirEdges : Prop :=
  ∀ (rom : WellFormedRom) (i : Instr) (s : State) (first : Inputs) (rest : List Inputs), i.WellFormed →
    accepts first s = true → first.cmd = encode i → NoReset rest → (∀ inp ∈ rest, inp.outReady = true) →
    (rest.length + 1 < commandEdges rom.rom i → ∃ t, runEdges rom (first :: rest) s = .next t ∧ t.busy = true) ∧
    (rest.length + 1 = commandEdges rom.rom i → ∃ t, runEdges rom (first :: rest) s = .next t ∧ t.busy = false)

/-- 70_reset_and_hazards.md R170, decision D30: if the sink is ready infinitely often and no reset comes, every frame ends. -/
def Obligations.FairSinkEndsEveryFrame : Prop :=
  ∀ (rom : WellFormedRom) (s : State) (feed : Nat → Inputs), State.Legal rom.rom s → s.busy = true →
    (∀ n, (feed n).rst = false) → (∀ n, ∃ m, n ≤ m ∧ (feed m).outReady = true) →
    ∃ n t, runEdges rom ((List.range n).map feed) s = .next t ∧ t.busy = false ∧ t.idx = 0

/-- 30_encoding.md R81, 41_packer.md R108, 70_reset_and_hazards.md R171: UPD.TEMP emits the clear frame and then the draw
frame with the digits, in 1 + (16 + 1) + (L[2] + 1) edges when nothing stalls. -/
def Obligations.UpdTempEmitsClearThenDraw : Prop :=
  ∀ (rom : WellFormedRom) (s : State) (d : Digits) (v : Bool) (fill fill' : List Inputs), s.busy = false →
    d.tens.toNat ≤ 9 → d.ones.toNat ≤ 9 → d.tenths.toNat ≤ 9 →
    NoReset fill → (∀ inp ∈ fill, inp.outReady = true) → fill.length = 16 →
    NoReset fill' → (∀ inp ∈ fill', inp.outReady = true) → fill'.length = rom.rom.len 2 →
    ∃ w0 w1 w2,
      assembleLine (.pseudo (.updTemp d.tens.toNat d.ones.toNat d.tenths.toNat v.toNat)) = .ok [w0, w1, w2] ∧
      emitted rom (offering w0 true :: offering w1 true :: fill ++ offering w2 true :: fill') s =
        frame rom.rom 0 false d ++ frame rom.rom 2 v d ∧
      runEdges rom (offering w0 true :: offering w1 true :: fill ++ offering w2 true :: fill') s =
        .next { s with acc := frameChecksum rom.rom 2 v d, dig := d, tsel := 2, var := v, idx := 0, busy := false }
end

