-- ==== Sys2Proof/Laws/Decode.lean ====
section
/-! SUPPORT. Bit fields of command words in numbers, and the decoder opcode by opcode. -/

namespace Sys2Proof

/-- A field of a word is its number divided and cut (00_scope.md R5). -/
theorem field_toNat (w : Word) (lo n : Nat) : (field w lo n).toNat = w.toNat / 2 ^ lo % 2 ^ n := by
  simp [field, BitVec.extractLsb'_toNat, Nat.shiftRight_eq_div_pow]

theorem field_eq_ofNat (w : Word) (lo n : Nat) : field w lo n = BitVec.ofNat n (w.toNat / 2 ^ lo) := by
  apply BitVec.eq_of_toNat_eq
  simp [field_toNat]

theorem field_eq_zero_iff (w : Word) (lo n : Nat) : field w lo n = 0 ↔ w.toNat / 2 ^ lo % 2 ^ n = 0 := by
  rw [← BitVec.toNat_inj, field_toNat]
  simp

/-- The opcode field is the number of the word above 4096 (30_encoding.md R70). -/
theorem opcode_toNat (w : Word) : (field w 12 4).toNat = w.toNat / 4096 := by
  have hw := w.isLt
  rw [field_toNat]
  omega

/-- Bit 3 of a word, the variant bit of format S (30_encoding.md R74). -/
theorem variant_bit (w : Word) : w.getLsbD 3 = (w.toNat / 8 % 2 == 1) := by
  simp [BitVec.getLsbD, Nat.testBit, Nat.shiftRight_eq_div_pow]

/-- The decoder read as arithmetic on the word's number: fields are quotients and remainders. -/
theorem decode_numeric (w : Word) : decode w =
    match w.toNat / 4096 with
    | 0 => if w.toNat % 4096 = 0 then .nop else .illegal w
    | 1 => if w.toNat % 4096 = 0 then .csumClr else .illegal w
    | 2 => if w.toNat / 256 % 16 = 0 then .csumAdd (BitVec.ofNat 8 w.toNat) else .illegal w
    | 3 => if w.toNat / 256 % 16 = 0 then .csumChk (BitVec.ofNat 8 w.toNat) else .illegal w
    | 4 => .fpLdd (BitVec.ofNat 4 (w.toNat / 256)) (BitVec.ofNat 4 (w.toNat / 16)) (BitVec.ofNat 4 w.toNat)
    | 5 => if w.toNat / 16 % 256 = 0 then .fpSend (w.toNat / 8 % 2 == 1) (BitVec.ofNat 3 w.toNat) else .illegal w
    | 6 => if w.toNat % 4096 = 0 then .statClr else .illegal w
    | 7 => .illegal w
    | _ => .illegalHigh w := by
  unfold decode
  rw [opcode_toNat]
  simp only [field_eq_zero_iff, variant_bit]
  split <;> simp [field_eq_ofNat, *]

/-! ### The number of each command's word (30_encoding.md R71 to R75) -/

theorem encode_csumAdd_toNat (b : Byte) : (encode (.csumAdd b)).toNat = 0x2000 + b.toNat := by
  have hb := b.isLt
  simp only [encode, BitVec.toNat_append, Nat.shiftLeft_eq, BitVec.toNat_ofNat]
  rw [Nat.mul_comm, ← Nat.two_pow_add_eq_or_of_lt hb]

theorem encode_csumChk_toNat (b : Byte) : (encode (.csumChk b)).toNat = 0x3000 + b.toNat := by
  have hb := b.isLt
  simp only [encode, BitVec.toNat_append, Nat.shiftLeft_eq, BitVec.toNat_ofNat]
  rw [Nat.mul_comm, ← Nat.two_pow_add_eq_or_of_lt hb]

theorem encode_fpLdd_toNat (t o f : Digit) :
    (encode (.fpLdd t o f)).toNat = 0x4000 + t.toNat * 256 + o.toNat * 16 + f.toNat := by
  have ht := t.isLt
  have ho := o.isLt
  have hf := f.isLt
  simp only [encode, BitVec.toNat_append, Nat.shiftLeft_eq, BitVec.toNat_ofNat]
  rw [Nat.mul_comm _ (2 ^ 4), ← Nat.two_pow_add_eq_or_of_lt hf, Nat.mul_comm _ (2 ^ 4), ← Nat.two_pow_add_eq_or_of_lt ho,
    Nat.mul_comm _ (2 ^ 4), ← Nat.two_pow_add_eq_or_of_lt ht]
  omega

theorem encode_fpSend_toNat (v : Bool) (tid : TemplateId) :
    (encode (.fpSend v tid)).toNat = 0x5000 + v.toNat * 8 + tid.toNat := by
  revert v tid; decide

end Sys2Proof
end

