-- ==== Sys2Proof/Laws/State.lean ====
section
/-! SUPPORT. One lemma per field per update: what each named operation over the state does to each state element. -/

namespace Sys2Proof.Machine.State

/-! ### clearAcc -/

@[simp] theorem clearAcc_acc (s : State) : (s.clearAcc).acc = 0x00 := rfl
@[simp] theorem clearAcc_dig (s : State) : (s.clearAcc).dig = s.dig := rfl
@[simp] theorem clearAcc_tsel (s : State) : (s.clearAcc).tsel = s.tsel := rfl
@[simp] theorem clearAcc_var (s : State) : (s.clearAcc).var = s.var := rfl
@[simp] theorem clearAcc_idx (s : State) : (s.clearAcc).idx = s.idx := rfl
@[simp] theorem clearAcc_busy (s : State) : (s.clearAcc).busy = s.busy := rfl
@[simp] theorem clearAcc_matched (s : State) : (s.clearAcc).matched = s.matched := rfl
@[simp] theorem clearAcc_errIll (s : State) : (s.clearAcc).errIll = s.errIll := rfl
@[simp] theorem clearAcc_errDig (s : State) : (s.clearAcc).errDig = s.errDig := rfl
@[simp] theorem clearAcc_pending (s : State) : (s.clearAcc).pending = s.pending := rfl
@[simp] theorem clearAcc_draws (s : State) : (s.clearAcc).draws = s.draws := rfl

/-! ### addAcc -/

@[simp] theorem addAcc_acc (b : Byte) (s : State) : (s.addAcc b).acc = s.acc + b := rfl
@[simp] theorem addAcc_dig (b : Byte) (s : State) : (s.addAcc b).dig = s.dig := rfl
@[simp] theorem addAcc_tsel (b : Byte) (s : State) : (s.addAcc b).tsel = s.tsel := rfl
@[simp] theorem addAcc_var (b : Byte) (s : State) : (s.addAcc b).var = s.var := rfl
@[simp] theorem addAcc_idx (b : Byte) (s : State) : (s.addAcc b).idx = s.idx := rfl
@[simp] theorem addAcc_busy (b : Byte) (s : State) : (s.addAcc b).busy = s.busy := rfl
@[simp] theorem addAcc_matched (b : Byte) (s : State) : (s.addAcc b).matched = s.matched := rfl
@[simp] theorem addAcc_errIll (b : Byte) (s : State) : (s.addAcc b).errIll = s.errIll := rfl
@[simp] theorem addAcc_errDig (b : Byte) (s : State) : (s.addAcc b).errDig = s.errDig := rfl
@[simp] theorem addAcc_pending (b : Byte) (s : State) : (s.addAcc b).pending = s.pending := rfl
@[simp] theorem addAcc_draws (b : Byte) (s : State) : (s.addAcc b).draws = s.draws := rfl

/-! ### setMatched -/

@[simp] theorem setMatched_acc (m : Bool) (s : State) : (s.setMatched m).acc = s.acc := rfl
@[simp] theorem setMatched_dig (m : Bool) (s : State) : (s.setMatched m).dig = s.dig := rfl
@[simp] theorem setMatched_tsel (m : Bool) (s : State) : (s.setMatched m).tsel = s.tsel := rfl
@[simp] theorem setMatched_var (m : Bool) (s : State) : (s.setMatched m).var = s.var := rfl
@[simp] theorem setMatched_idx (m : Bool) (s : State) : (s.setMatched m).idx = s.idx := rfl
@[simp] theorem setMatched_busy (m : Bool) (s : State) : (s.setMatched m).busy = s.busy := rfl
@[simp] theorem setMatched_matched (m : Bool) (s : State) : (s.setMatched m).matched = m := rfl
@[simp] theorem setMatched_errIll (m : Bool) (s : State) : (s.setMatched m).errIll = s.errIll := rfl
@[simp] theorem setMatched_errDig (m : Bool) (s : State) : (s.setMatched m).errDig = s.errDig := rfl
@[simp] theorem setMatched_pending (m : Bool) (s : State) : (s.setMatched m).pending = s.pending := rfl
@[simp] theorem setMatched_draws (m : Bool) (s : State) : (s.setMatched m).draws = s.draws := rfl

/-! ### loadDigits -/

@[simp] theorem loadDigits_acc (d : Digits) (s : State) : (s.loadDigits d).acc = s.acc := rfl
@[simp] theorem loadDigits_dig (d : Digits) (s : State) : (s.loadDigits d).dig = d := rfl
@[simp] theorem loadDigits_tsel (d : Digits) (s : State) : (s.loadDigits d).tsel = s.tsel := rfl
@[simp] theorem loadDigits_var (d : Digits) (s : State) : (s.loadDigits d).var = s.var := rfl
@[simp] theorem loadDigits_idx (d : Digits) (s : State) : (s.loadDigits d).idx = s.idx := rfl
@[simp] theorem loadDigits_busy (d : Digits) (s : State) : (s.loadDigits d).busy = s.busy := rfl
@[simp] theorem loadDigits_matched (d : Digits) (s : State) : (s.loadDigits d).matched = s.matched := rfl
@[simp] theorem loadDigits_errIll (d : Digits) (s : State) : (s.loadDigits d).errIll = s.errIll := rfl
@[simp] theorem loadDigits_errDig (d : Digits) (s : State) : (s.loadDigits d).errDig = s.errDig := rfl
@[simp] theorem loadDigits_pending (d : Digits) (s : State) : (s.loadDigits d).pending = s.pending := rfl
@[simp] theorem loadDigits_draws (d : Digits) (s : State) : (s.loadDigits d).draws = s.draws := rfl

/-! ### startFrame -/

@[simp] theorem startFrame_acc (v : Bool) (tid : TemplateId) (s : State) : (s.startFrame v tid).acc = 0x00 := rfl
@[simp] theorem startFrame_dig (v : Bool) (tid : TemplateId) (s : State) : (s.startFrame v tid).dig = s.dig := rfl
@[simp] theorem startFrame_tsel (v : Bool) (tid : TemplateId) (s : State) : (s.startFrame v tid).tsel = tid := rfl
@[simp] theorem startFrame_var (v : Bool) (tid : TemplateId) (s : State) : (s.startFrame v tid).var = v := rfl
@[simp] theorem startFrame_idx (v : Bool) (tid : TemplateId) (s : State) : (s.startFrame v tid).idx = 0 := rfl
@[simp] theorem startFrame_busy (v : Bool) (tid : TemplateId) (s : State) : (s.startFrame v tid).busy = true := rfl
@[simp] theorem startFrame_matched (v : Bool) (tid : TemplateId) (s : State) : (s.startFrame v tid).matched = s.matched :=
  rfl
@[simp] theorem startFrame_errIll (v : Bool) (tid : TemplateId) (s : State) : (s.startFrame v tid).errIll = s.errIll :=
  rfl
@[simp] theorem startFrame_errDig (v : Bool) (tid : TemplateId) (s : State) : (s.startFrame v tid).errDig = s.errDig :=
  rfl
@[simp] theorem startFrame_pending (v : Bool) (tid : TemplateId) (s : State) : (s.startFrame v tid).pending = s.pending :=
  rfl
@[simp] theorem startFrame_draws (v : Bool) (tid : TemplateId) (s : State) : (s.startFrame v tid).draws = s.draws :=
  rfl

/-! ### raise -/

@[simp] theorem raise_acc (e : ErrorCause) (s : State) : (s.raise e).acc = s.acc := by cases e <;> rfl
@[simp] theorem raise_dig (e : ErrorCause) (s : State) : (s.raise e).dig = s.dig := by cases e <;> rfl
@[simp] theorem raise_tsel (e : ErrorCause) (s : State) : (s.raise e).tsel = s.tsel := by cases e <;> rfl
@[simp] theorem raise_var (e : ErrorCause) (s : State) : (s.raise e).var = s.var := by cases e <;> rfl
@[simp] theorem raise_idx (e : ErrorCause) (s : State) : (s.raise e).idx = s.idx := by cases e <;> rfl
@[simp] theorem raise_busy (e : ErrorCause) (s : State) : (s.raise e).busy = s.busy := by cases e <;> rfl
@[simp] theorem raise_matched (e : ErrorCause) (s : State) : (s.raise e).matched = s.matched := by cases e <;> rfl
@[simp] theorem raise_errIll (e : ErrorCause) (s : State) : (s.raise e).errIll = (s.errIll || e == .errIll) :=
  by cases e <;> simp [raise]
@[simp] theorem raise_errDig (e : ErrorCause) (s : State) : (s.raise e).errDig = (s.errDig || e == .errDig) :=
  by cases e <;> simp [raise]
@[simp] theorem raise_pending (e : ErrorCause) (s : State) : (s.raise e).pending = s.pending := by cases e <;> rfl
@[simp] theorem raise_draws (e : ErrorCause) (s : State) : (s.raise e).draws = s.draws := by cases e <;> rfl

/-! ### clearErrors -/

@[simp] theorem clearErrors_acc (s : State) : (s.clearErrors).acc = s.acc := rfl
@[simp] theorem clearErrors_dig (s : State) : (s.clearErrors).dig = s.dig := rfl
@[simp] theorem clearErrors_tsel (s : State) : (s.clearErrors).tsel = s.tsel := rfl
@[simp] theorem clearErrors_var (s : State) : (s.clearErrors).var = s.var := rfl
@[simp] theorem clearErrors_idx (s : State) : (s.clearErrors).idx = s.idx := rfl
@[simp] theorem clearErrors_busy (s : State) : (s.clearErrors).busy = s.busy := rfl
@[simp] theorem clearErrors_matched (s : State) : (s.clearErrors).matched = s.matched := rfl
@[simp] theorem clearErrors_errIll (s : State) : (s.clearErrors).errIll = false := rfl
@[simp] theorem clearErrors_errDig (s : State) : (s.clearErrors).errDig = false := rfl
@[simp] theorem clearErrors_pending (s : State) : (s.clearErrors).pending = s.pending := rfl
@[simp] theorem clearErrors_draws (s : State) : (s.clearErrors).draws = s.draws := rfl

/-! ### resetBlock -/

@[simp] theorem resetBlock_acc (s : State) : (s.resetBlock).acc = 0x00 := rfl
@[simp] theorem resetBlock_dig (s : State) : (s.resetBlock).dig = ⟨0, 0, 0⟩ := rfl
@[simp] theorem resetBlock_tsel (s : State) : (s.resetBlock).tsel = 0 := rfl
@[simp] theorem resetBlock_var (s : State) : (s.resetBlock).var = false := rfl
@[simp] theorem resetBlock_idx (s : State) : (s.resetBlock).idx = 0 := rfl
@[simp] theorem resetBlock_busy (s : State) : (s.resetBlock).busy = false := rfl
@[simp] theorem resetBlock_matched (s : State) : (s.resetBlock).matched = false := rfl
@[simp] theorem resetBlock_errIll (s : State) : (s.resetBlock).errIll = false := rfl
@[simp] theorem resetBlock_errDig (s : State) : (s.resetBlock).errDig = false := rfl
@[simp] theorem resetBlock_pending (s : State) : (s.resetBlock).pending = s.pending := rfl
@[simp] theorem resetBlock_draws (s : State) : (s.resetBlock).draws = s.draws := rfl

/-! ### transferByte -/

@[simp] theorem transferByte_acc (rom : TemplateRom) (b : Byte) (s : State) : (s.transferByte rom b).acc = if s.idx.toNat < rom.cso s.tsel then s.acc + b else s.acc :=
  rfl
@[simp] theorem transferByte_dig (rom : TemplateRom) (b : Byte) (s : State) : (s.transferByte rom b).dig = s.dig :=
  rfl
@[simp] theorem transferByte_tsel (rom : TemplateRom) (b : Byte) (s : State) : (s.transferByte rom b).tsel = s.tsel :=
  rfl
@[simp] theorem transferByte_var (rom : TemplateRom) (b : Byte) (s : State) : (s.transferByte rom b).var = s.var :=
  rfl
@[simp] theorem transferByte_idx (rom : TemplateRom) (b : Byte) (s : State) : (s.transferByte rom b).idx = if s.atLast rom then 0 else s.idx + 1 :=
  rfl
@[simp] theorem transferByte_busy (rom : TemplateRom) (b : Byte) (s : State) : (s.transferByte rom b).busy = if s.atLast rom then false else s.busy :=
  rfl
@[simp] theorem transferByte_matched (rom : TemplateRom) (b : Byte) (s : State) : (s.transferByte rom b).matched = s.matched :=
  rfl
@[simp] theorem transferByte_errIll (rom : TemplateRom) (b : Byte) (s : State) : (s.transferByte rom b).errIll = s.errIll :=
  rfl
@[simp] theorem transferByte_errDig (rom : TemplateRom) (b : Byte) (s : State) : (s.transferByte rom b).errDig = s.errDig :=
  rfl
@[simp] theorem transferByte_pending (rom : TemplateRom) (b : Byte) (s : State) : (s.transferByte rom b).pending = s.pending :=
  rfl
@[simp] theorem transferByte_draws (rom : TemplateRom) (b : Byte) (s : State) : (s.transferByte rom b).draws = s.draws :=
  rfl

/-! ### offerNext -/

@[simp] theorem offerNext_acc (w : Word) (s : State) : (s.offerNext w).acc = s.acc := rfl
@[simp] theorem offerNext_dig (w : Word) (s : State) : (s.offerNext w).dig = s.dig := rfl
@[simp] theorem offerNext_tsel (w : Word) (s : State) : (s.offerNext w).tsel = s.tsel := rfl
@[simp] theorem offerNext_var (w : Word) (s : State) : (s.offerNext w).var = s.var := rfl
@[simp] theorem offerNext_idx (w : Word) (s : State) : (s.offerNext w).idx = if s.busy then 0 else s.idx := rfl
@[simp] theorem offerNext_busy (w : Word) (s : State) : (s.offerNext w).busy = false := rfl
@[simp] theorem offerNext_matched (w : Word) (s : State) : (s.offerNext w).matched = s.matched := rfl
@[simp] theorem offerNext_errIll (w : Word) (s : State) : (s.offerNext w).errIll = s.errIll := rfl
@[simp] theorem offerNext_errDig (w : Word) (s : State) : (s.offerNext w).errDig = s.errDig := rfl
@[simp] theorem offerNext_pending (w : Word) (s : State) : (s.offerNext w).pending = { (s.pending.headD default) with rst := false, cmd := w, cmdValid := true } :: s.pending.tail :=
  rfl
@[simp] theorem offerNext_draws (w : Word) (s : State) : (s.offerNext w).draws = s.draws := rfl

/-! ### dropInputs -/

@[simp] theorem dropInputs_acc (s : State) : (s.dropInputs).acc = s.acc := by unfold dropInputs; split <;> rfl
@[simp] theorem dropInputs_dig (s : State) : (s.dropInputs).dig = s.dig := by unfold dropInputs; split <;> rfl
@[simp] theorem dropInputs_tsel (s : State) : (s.dropInputs).tsel = s.tsel := by unfold dropInputs; split <;> rfl
@[simp] theorem dropInputs_var (s : State) : (s.dropInputs).var = s.var := by unfold dropInputs; split <;> rfl
@[simp] theorem dropInputs_idx (s : State) : (s.dropInputs).idx = s.idx := by unfold dropInputs; split <;> rfl
@[simp] theorem dropInputs_busy (s : State) : (s.dropInputs).busy = s.busy := by unfold dropInputs; split <;> rfl
@[simp] theorem dropInputs_matched (s : State) : (s.dropInputs).matched = s.matched :=
  by unfold dropInputs; split <;> rfl
@[simp] theorem dropInputs_errIll (s : State) : (s.dropInputs).errIll = s.errIll :=
  by unfold dropInputs; split <;> rfl
@[simp] theorem dropInputs_errDig (s : State) : (s.dropInputs).errDig = s.errDig :=
  by unfold dropInputs; split <;> rfl
@[simp] theorem dropInputs_pending (s : State) : (s.dropInputs).pending = s.pending.tail :=
  by unfold dropInputs; cases s.pending <;> rfl
@[simp] theorem dropInputs_draws (s : State) : (s.dropInputs).draws = if s.pending.isEmpty then s.draws + 1 else s.draws :=
  by unfold dropInputs; cases s.pending <;> rfl

end Sys2Proof.Machine.State
end

