-- ==== Sys2Proof/Laws/Exec.lean ====
section
/-! SUPPORT. What executing a command can do, said once: provers cite this instead of unfolding the meanings. -/

namespace Sys2Proof.Machine

theorem Digits.legal_iff (d : Digits) :
    d.legal = true ↔ d.tens.toNat ≤ 9 ∧ d.ones.toNat ≤ 9 ∧ d.tenths.toNat ≤ 9 := by
  simp [Digits.legal, and_assoc]

theorem sendLegal_iff (v : Bool) (tid : TemplateId) :
    sendLegal v tid = true ↔ tid.toNat ≤ 4 ∧ (v = false ∨ tid = 2 ∨ tid = 3) := by
  cases v <;> simp [sendLegal]

theorem sendLegal_eq_false_iff (v : Bool) (tid : TemplateId) :
    sendLegal v tid = false ↔ 5 ≤ tid.toNat ∨ (v = true ∧ (tid.toNat = 0 ∨ tid.toNat = 1 ∨ tid.toNat = 4)) := by
  revert v tid; decide

theorem sendLegal_id {v : Bool} {tid : TemplateId} (h : sendLegal v tid = true) : tid.toNat ≤ 4 :=
  ((sendLegal_iff v tid).1 h).1

theorem execFpLdd_legal {t o f : Digit} (h : Digits.legal ⟨t, o, f⟩ = true) (s : State) :
    execFpLdd t o f s = .next (s.loadDigits ⟨t, o, f⟩) := by simp [execFpLdd, h]

theorem execFpLdd_illegal {t o f : Digit} (h : Digits.legal ⟨t, o, f⟩ = false) (s : State) :
    execFpLdd t o f s = .next (s.raise .errDig) := by simp [execFpLdd, h]

theorem execFpSend_legal {v : Bool} {tid : TemplateId} (h : sendLegal v tid = true) (s : State) :
    execFpSend v tid s = .next (s.startFrame v tid) := by simp [execFpSend, h]

theorem execFpSend_illegal {v : Bool} {tid : TemplateId} (h : sendLegal v tid = false) (s : State) :
    execFpSend v tid s = .next (s.raise .errIll) := by simp [execFpSend, h]

/-- Every next state of a command is one of these: unchanged, ACC cleared or added to, MATCH written, digits loaded, a frame
started, an error raised, or the errors cleared. -/
theorem exec_cases {i : Instr} {s t : State} (h : exec i s = .next t) :
    (i = .nop ∧ t = s) ∨ (i = .csumClr ∧ t = s.clearAcc) ∨ (∃ b, i = .csumAdd b ∧ t = s.addAcc b) ∨
    (∃ b, i = .csumChk b ∧ t = s.setMatched (matchFlag s.acc b)) ∨
    (∃ a o f, i = .fpLdd a o f ∧ Digits.legal ⟨a, o, f⟩ = true ∧ t = s.loadDigits ⟨a, o, f⟩) ∨
    (∃ a o f, i = .fpLdd a o f ∧ Digits.legal ⟨a, o, f⟩ = false ∧ t = s.raise .errDig) ∨
    (∃ v tid, i = .fpSend v tid ∧ sendLegal v tid = true ∧ t = s.startFrame v tid) ∨
    (∃ v tid, i = .fpSend v tid ∧ sendLegal v tid = false ∧ t = s.raise .errIll) ∨
    (i = .statClr ∧ t = s.clearErrors) ∨
    (((∃ w, i = .illegal w) ∨ (∃ w, i = .illegalHigh w)) ∧ t = s.raise .errIll) := by
  cases i with
  | nop => injection h with h; exact .inl ⟨rfl, h.symm⟩
  | csumClr => injection h with h; exact .inr (.inl ⟨rfl, h.symm⟩)
  | csumAdd b => injection h with h; exact .inr (.inr (.inl ⟨b, rfl, h.symm⟩))
  | csumChk b => injection h with h; exact .inr (.inr (.inr (.inl ⟨b, rfl, h.symm⟩)))
  | fpLdd a o f =>
    cases hd : Digits.legal ⟨a, o, f⟩ with
    | true =>
      rw [exec, execFpLdd_legal hd] at h; injection h with h
      exact .inr (.inr (.inr (.inr (.inl ⟨a, o, f, rfl, hd, h.symm⟩))))
    | false =>
      rw [exec, execFpLdd_illegal hd] at h; injection h with h
      exact .inr (.inr (.inr (.inr (.inr (.inl ⟨a, o, f, rfl, hd, h.symm⟩)))))
  | fpSend v tid =>
    cases hl : sendLegal v tid with
    | true =>
      rw [exec, execFpSend_legal hl] at h; injection h with h
      exact .inr (.inr (.inr (.inr (.inr (.inr (.inl ⟨v, tid, rfl, hl, h.symm⟩))))))
    | false =>
      rw [exec, execFpSend_illegal hl] at h; injection h with h
      exact .inr (.inr (.inr (.inr (.inr (.inr (.inr (.inl ⟨v, tid, rfl, hl, h.symm⟩)))))))
  | statClr =>
    injection h with h; exact .inr (.inr (.inr (.inr (.inr (.inr (.inr (.inr (.inl ⟨rfl, h.symm⟩))))))))
  | illegal w =>
    injection h with h; exact .inr (.inr (.inr (.inr (.inr (.inr (.inr (.inr (.inr ⟨.inl ⟨w, rfl⟩, h.symm⟩))))))))
  | illegalHigh w =>
    injection h with h; exact .inr (.inr (.inr (.inr (.inr (.inr (.inr (.inr (.inr ⟨.inr ⟨w, rfl⟩, h.symm⟩))))))))

/-- No command stops the block. -/
theorem exec_next (i : Instr) (s : State) : ∃ t, exec i s = .next t := by
  cases i with
  | fpLdd a o f =>
    cases hd : Digits.legal ⟨a, o, f⟩ with
    | true => exact ⟨_, execFpLdd_legal hd s⟩
    | false => exact ⟨_, execFpLdd_illegal hd s⟩
  | fpSend v tid =>
    cases hl : sendLegal v tid with
    | true => exact ⟨_, execFpSend_legal hl s⟩
    | false => exact ⟨_, execFpSend_illegal hl s⟩
  | nop | csumClr | csumAdd _ | csumChk _ | statClr | illegal _ | illegalHigh _ => exact ⟨_, rfl⟩

/-- Executing a command neither reads nor writes the input draws. -/
theorem exec_withDraws {i : Instr} {s t : State} (h : exec i s = .next t) (p : List Inputs) (n : Nat) :
    exec i { s with pending := p, draws := n } = .next { t with pending := p, draws := n } := by
  rcases exec_cases h with ⟨rfl, rfl⟩ | ⟨rfl, rfl⟩ | ⟨b, rfl, rfl⟩ | ⟨b, rfl, rfl⟩ | ⟨a, o, f, rfl, hl, rfl⟩ |
    ⟨a, o, f, rfl, hl, rfl⟩ | ⟨v, tid, rfl, hl, rfl⟩ | ⟨v, tid, rfl, hl, rfl⟩ | ⟨rfl, rfl⟩ | ⟨⟨w, rfl⟩ | ⟨w, rfl⟩, rfl⟩
  case inr.inr.inr.inr.inl => exact execFpLdd_legal hl _
  case inr.inr.inr.inr.inr.inl => exact execFpLdd_illegal hl _
  case inr.inr.inr.inr.inr.inr.inl => exact execFpSend_legal hl _
  case inr.inr.inr.inr.inr.inr.inr.inl => exact execFpSend_illegal hl _
  all_goals rfl

end Sys2Proof.Machine
end

