-- ==== Sys2Proof/Laws/Rom.lean ====
section
/-! SUPPORT. What W1 to W7 give about a well-formed TEMPLATE_ROM (20_memory.md R53 to R58), each fact once. -/

namespace Sys2Proof.Machine

namespace TemplateRom

theorem wf_checks {rom : TemplateRom} (h : rom.wf = true) :
    rom.w1 = true ∧ rom.w2 = true ∧ rom.w3 = true ∧ rom.w4 = true ∧ rom.w5 = true ∧ rom.w6 = true ∧ rom.w7 = true := by
  simpa only [wf, Bool.and_eq_true, and_assoc] using h

theorem wf_of_checks {rom : TemplateRom}
    (h : rom.w1 = true ∧ rom.w2 = true ∧ rom.w3 = true ∧ rom.w4 = true ∧ rom.w5 = true ∧ rom.w6 = true ∧ rom.w7 = true) :
    rom.wf = true := by
  simpa only [wf, Bool.and_eq_true, and_assoc] using h

theorem toWellFormed_of_wf {rom : TemplateRom} (h : rom.wf = true) : rom.toWellFormed = some ⟨rom, h⟩ := by simp [toWellFormed, h]

theorem toWellFormed_of_not_wf {rom : TemplateRom} (h : rom.wf = false) : rom.toWellFormed = none := by simp [toWellFormed, h]

/-- A template id of 3 bits that is at most 4 is one of the five (20_memory.md R50). -/
theorem id_cases {t : TemplateId} (h : t.toNat ≤ 4) : t = 0 ∨ t = 1 ∨ t = 2 ∨ t = 3 ∨ t = 4 := by
  revert t; decide

theorem mem_templateIds {t : TemplateId} (h : t.toNat ≤ 4) : t ∈ templateIds := by
  revert t; decide

/-- A reserved id has no bytes (20_memory.md R50). -/
theorem len_reserved (rom : TemplateRom) {t : TemplateId} (h : ¬t.toNat ≤ 4) : rom.len t = 0 := by
  have ht : t = 5 ∨ t = 6 ∨ t = 7 := by revert t; decide
  rcases ht with rfl | rfl | rfl <;> rfl

theorem id_le_of_populated {rom : TemplateRom} {t : TemplateId} {n : Nat} (h : n < rom.len t) : t.toNat ≤ 4 := by
  by_contra hc
  rw [rom.len_reserved hc] at h
  omega

end TemplateRom

namespace WellFormedRom

variable (r : WellFormedRom)

theorem len_clear : r.rom.len 0 = 16 ∧ r.rom.len 1 = 16 := by
  simpa [TemplateRom.w1] using (TemplateRom.wf_checks r.ok).1

theorem len_drawTemp : 30 ≤ r.rom.len 2 ∧ r.rom.len 2 ≤ 33 := by
  have h := (TemplateRom.wf_checks r.ok).2.1
  simp only [TemplateRom.w2, Bool.and_eq_true, decide_eq_true_eq] at h
  exact h.1.1

theorem len_drawHum : 30 ≤ r.rom.len 3 ∧ r.rom.len 3 ≤ 33 := by
  have h := (TemplateRom.wf_checks r.ok).2.1
  simp only [TemplateRom.w2, Bool.and_eq_true, decide_eq_true_eq] at h
  exact h.1.2

theorem len_flip : 7 ≤ r.rom.len 4 ∧ r.rom.len 4 ≤ 64 := by
  have h := (TemplateRom.wf_checks r.ok).2.1
  simp only [TemplateRom.w2, Bool.and_eq_true, decide_eq_true_eq] at h
  exact h.2

/-- Every template has 7 to 64 bytes, so that IDX's 6 bits reach its last one (00_scope.md R4). -/
theorem len_bounds {t : TemplateId} (h : t.toNat ≤ 4) : 7 ≤ r.rom.len t ∧ r.rom.len t ≤ 64 := by
  have h0 := r.len_clear
  have h2 := r.len_drawTemp
  have h3 := r.len_drawHum
  have h4 := r.len_flip
  rcases TemplateRom.id_cases h with rfl | rfl | rfl | rfl | rfl <;> omega

theorem len_le (t : TemplateId) : r.rom.len t ≤ 64 := by
  by_cases h : t.toNat ≤ 4
  · exact (r.len_bounds h).2
  · rw [r.rom.len_reserved h]; omega

/-- W3: the last byte is CR (20_memory.md R54). -/
theorem last_byte {t : TemplateId} (h : t.toNat ≤ 4) : (r.rom.bytes t)[r.rom.len t - 1]? = some 0x0D := by
  have h3 := (TemplateRom.wf_checks r.ok).2.2.1
  simp only [TemplateRom.w3, List.all_eq_true, beq_iff_eq] at h3
  exact h3 t (TemplateRom.mem_templateIds h)

/-- W4: the first byte is STX (20_memory.md R55). -/
theorem first_byte {t : TemplateId} (h : t.toNat ≤ 4) : (r.rom.bytes t)[0]? = some r.rom.stx := by
  have h4 := (TemplateRom.wf_checks r.ok).2.2.2.1
  simp only [TemplateRom.w4, List.all_eq_true, Bool.and_eq_true, beq_iff_eq] at h4
  exact (h4 t (TemplateRom.mem_templateIds h)).1

/-- W5 for DRAW_TEMP (20_memory.md R56). -/
theorem numOff_drawTemp : 5 ≤ r.rom.numOff 2 ∧ r.rom.numOff 2 + 3 < r.rom.cso 2 := by
  have h5 := (TemplateRom.wf_checks r.ok).2.2.2.2.1
  simp only [TemplateRom.w5, Bool.and_eq_true, decide_eq_true_eq] at h5
  exact h5.1

/-- W5 for DRAW_HUM (20_memory.md R56). -/
theorem numOff_drawHum : 5 ≤ r.rom.numOff 3 ∧ r.rom.numOff 3 + 1 < r.rom.cso 3 := by
  have h5 := (TemplateRom.wf_checks r.ok).2.2.2.2.1
  simp only [TemplateRom.w5, Bool.and_eq_true, decide_eq_true_eq] at h5
  exact h5.2

/-- W6: the decimal point (20_memory.md R57). -/
theorem decimal_point : (r.rom.bytes 2)[r.rom.numOff 2 + 2]? = some 0x2E := by
  have h6 := (TemplateRom.wf_checks r.ok).2.2.2.2.2.1
  simp only [TemplateRom.w6, beq_iff_eq] at h6
  exact h6

/-- W7: the variants' opcodes differ (20_memory.md R58). -/
theorem opcodes_differ {t : TemplateId} : (r.rom.draw t).opcShow ≠ (r.rom.draw t).opcBack := by
  have h7 := (TemplateRom.wf_checks r.ok).2.2.2.2.2.2
  simp only [TemplateRom.w7, Bool.and_eq_true, bne_iff_ne] at h7
  unfold TemplateRom.draw
  split
  · exact h7.2
  · exact h7.1

end WellFormedRom

end Sys2Proof.Machine
end

