-- ==== Sys2Proof/Laws/Packer.lean ====
section
/-! SUPPORT. ByteAt and the emission step, each said once. -/

namespace Sys2Proof.Machine

variable (r : WellFormedRom)

/-- ByteAt has a byte exactly at the populated addresses (20_memory.md R50). -/
theorem byteAt_isSome_iff (rom : TemplateRom) (t : TemplateId) (v : Bool) (d : Digits) (acc : Byte) (i : Index) :
    (byteAt rom t v d acc i).isSome = true ↔ i.toNat < rom.len t := by
  by_cases h : i.toNat < rom.len t
  · have hr : (rom.read t i).isSome = true := by
      unfold TemplateRom.read
      rw [List.getElem?_eq_getElem h]; rfl
    unfold byteAt TemplateRom.populated
    simp only [h, decide_true, Bool.not_true, Bool.false_eq_true, if_false, iff_true]
    repeat' split
    all_goals first | rfl | exact hr
  · simp [byteAt, TemplateRom.populated, h]

theorem byteAt_of_populated (rom : TemplateRom) (t : TemplateId) (v : Bool) (d : Digits) (acc : Byte) {i : Index}
    (h : i.toNat < rom.len t) : ∃ b, byteAt rom t v d acc i = some b :=
  Option.isSome_iff_exists.1 ((byteAt_isSome_iff rom t v d acc i).2 h)

theorem byteAt_of_unpopulated (rom : TemplateRom) (t : TemplateId) (v : Bool) (d : Digits) (acc : Byte) {i : Index}
    (h : ¬i.toNat < rom.len t) : byteAt rom t v d acc i = none := by
  simp [byteAt, TemplateRom.populated, h]

/-- At CSO the accumulator is presented (41_packer.md R103). -/
theorem byteAt_cso (rom : TemplateRom) (t : TemplateId) (v : Bool) (d : Digits) (acc : Byte) {i : Index}
    (h : i.toNat < rom.len t) (hc : i.toNat = rom.cso t) : byteAt rom t v d acc i = some acc := by
  have hp : rom.populated t i = true := decide_eq_true h
  simp [byteAt, hp, hc]

/-- The emission step stalls, transfers the presented byte, or stops at an unpopulated address. -/
theorem emit_cases (rom : TemplateRom) (ready : Bool) (s : State) :
    (ready = false ∧ emit rom ready s = .next s) ∨
    (ready = true ∧ ∃ b, s.presented rom = some b ∧ emit rom ready s = .next (s.transferByte rom b)) ∨
    (ready = true ∧ s.presented rom = none ∧ emit rom ready s = .fault .unpopulatedRomRead) := by
  cases ready with
  | false => exact .inl ⟨rfl, rfl⟩
  | true =>
    cases h : s.presented rom with
    | some b => exact .inr (.inl ⟨rfl, b, rfl, by simp [emit, h]⟩)
    | none => exact .inr (.inr ⟨rfl, rfl, by simp [emit, h]⟩)

end Sys2Proof.Machine
end

