-- ==== Sys2Proof/Laws/Edge.lean ====
section
/-! SUPPORT. What an edge can do, said once, and how runs of edges compose. -/

namespace Sys2Proof.Machine

variable (r : WellFormedRom)

theorem edge_reset {inp : Inputs} (h : inp.rst = true) (s : State) : edge r inp s = .next s.resetBlock := by
  simp [edge, h]

theorem edge_busy {inp : Inputs} (h : inp.rst = false) {s : State} (hb : s.busy = true) :
    edge r inp s = emit r.rom inp.outReady s := by simp [edge, h, hb]

theorem edge_accept {inp : Inputs} (h : inp.rst = false) (hv : inp.cmdValid = true) {s : State} (hb : s.busy = false) :
    edge r inp s = exec (decode inp.cmd) s := by simp [edge, h, hb, hv]

theorem edge_idle {inp : Inputs} (h : inp.rst = false) (hv : inp.cmdValid = false) {s : State} (hb : s.busy = false) :
    edge r inp s = .next s := by simp [edge, h, hb, hv]

theorem edge_stall {inp : Inputs} (h : inp.rst = false) (hr : inp.outReady = false) {s : State} (hb : s.busy = true) :
    edge r inp s = .next s := by simp [edge_busy r h hb, emit, hr]

theorem edge_transfer {inp : Inputs} (h : inp.rst = false) (hr : inp.outReady = true) {s : State} (hb : s.busy = true)
    {b : Byte} (hp : s.presented r.rom = some b) : edge r inp s = .next (s.transferByte r.rom b) := by
  simp [edge_busy r h hb, emit, hr, hp]

/-- Every next state of an edge: reset, a stall, a transfer, an executed command, or nothing. -/
theorem edge_cases {inp : Inputs} {s t : State} (h : edge r inp s = .next t) :
    (inp.rst = true ∧ t = s.resetBlock) ∨
    (inp.rst = false ∧ s.busy = true ∧ inp.outReady = false ∧ t = s) ∨
    (inp.rst = false ∧ s.busy = true ∧ inp.outReady = true ∧
      ∃ b, s.presented r.rom = some b ∧ t = s.transferByte r.rom b) ∨
    (inp.rst = false ∧ s.busy = false ∧ inp.cmdValid = true ∧ exec (decode inp.cmd) s = .next t) ∨
    (inp.rst = false ∧ s.busy = false ∧ inp.cmdValid = false ∧ t = s) := by
  cases hr : inp.rst with
  | true => rw [edge_reset r hr] at h; injection h with h; exact .inl ⟨rfl, h.symm⟩
  | false =>
    cases hb : s.busy with
    | true =>
      rw [edge_busy r hr hb] at h
      rcases emit_cases r.rom inp.outReady s with ⟨ho, he⟩ | ⟨ho, b, hp, he⟩ | ⟨ho, hp, he⟩
      · rw [he] at h; injection h with h; exact .inr (.inl ⟨rfl, rfl, ho, h.symm⟩)
      · rw [he] at h; injection h with h; exact .inr (.inr (.inl ⟨rfl, rfl, ho, b, hp, h.symm⟩))
      · rw [he] at h; cases h
    | false =>
      cases hv : inp.cmdValid with
      | true => rw [edge_accept r hr hv hb] at h; exact .inr (.inr (.inr (.inl ⟨rfl, rfl, rfl, h⟩)))
      | false =>
        rw [edge_idle r hr hv hb] at h; injection h with h; exact .inr (.inr (.inr (.inr ⟨rfl, rfl, rfl, h.symm⟩)))

/-- An edge neither reads nor writes the input draws. -/
theorem edge_withDraws {inp : Inputs} {s t : State} (h : edge r inp s = .next t) (p : List Inputs) (n : Nat) :
    edge r inp { s with pending := p, draws := n } = .next { t with pending := p, draws := n } := by
  rcases edge_cases r h with ⟨hr, rfl⟩ | ⟨hr, hb, ho, rfl⟩ | ⟨hr, hb, ho, b, hp, rfl⟩ | ⟨hr, hb, hv, hx⟩ | ⟨hr, hb, hv, rfl⟩
  · exact edge_reset r hr _
  · exact edge_stall r hr ho hb
  · exact edge_transfer r hr ho (s := { s with pending := p, draws := n }) hb hp
  · exact (edge_accept r hr hv (s := { s with pending := p, draws := n }) hb).trans (exec_withDraws hx p n)
  · exact edge_idle r hr hv hb

/-- An edge leaves the input draws as they were. -/
theorem edge_draws {inp : Inputs} {s t : State} (h : edge r inp s = .next t) :
    t.pending = s.pending ∧ t.draws = s.draws := by
  have h' := edge_withDraws r h s.pending s.draws
  have e := h.symm.trans h'
  injection e with e
  rw [e]
  exact ⟨rfl, rfl⟩

theorem transferred_not_ready {inp : Inputs} (h : inp.outReady = false) (s : State) : transferred r.rom inp s = none := by
  simp [transferred, h]

theorem transferred_idle {inp : Inputs} {s : State} (h : s.busy = false) : transferred r.rom inp s = none := by
  simp [transferred, outputs, State.outValid, h]

theorem transferred_reset {inp : Inputs} (h : inp.rst = true) (s : State) : transferred r.rom inp s = none := by
  simp [transferred, outputs, State.outValid, h]

theorem transferred_ready {inp : Inputs} (h : inp.rst = false) (hr : inp.outReady = true) {s : State}
    (hb : s.busy = true) : transferred r.rom inp s = s.presented r.rom := by
  simp [transferred, outputs, State.outValid, h, hr, hb]

@[simp] theorem runEdges_nil (s : State) : runEdges r [] s = .next s := rfl

@[simp] theorem emitted_nil (s : State) : emitted r [] s = [] := rfl

theorem runEdges_cons {inp : Inputs} {s t : State} (h : edge r inp s = .next t) (rest : List Inputs) :
    runEdges r (inp :: rest) s = runEdges r rest t := by simp [runEdges, h]

theorem emitted_cons {inp : Inputs} {s t : State} (h : edge r inp s = .next t) (rest : List Inputs) :
    emitted r (inp :: rest) s = (transferred r.rom inp s).toList ++ emitted r rest t := by simp [emitted, h]

/-- Edges at which the sink is not ready emit nothing. -/
theorem emitted_of_not_ready {inps : List Inputs} (h : ∀ inp ∈ inps, inp.outReady = false) (s : State) :
    emitted r inps s = [] := by
  induction inps generalizing s with
  | nil => rfl
  | cons x xs ih =>
    have hx := transferred_not_ready r (h x (by simp)) s
    have hxs : ∀ inp ∈ xs, inp.outReady = false := fun inp hi => h inp (by simp [hi])
    cases he : edge r x s with
    | next t => rw [emitted_cons r he, hx, ih hxs]; rfl
    | fault f => simp [emitted, he, hx]
    | refused f => simp [emitted, he, hx]

theorem runEdges_append {xs : List Inputs} {s t : State} (h : runEdges r xs s = .next t) (ys : List Inputs) :
    runEdges r (xs ++ ys) s = runEdges r ys t := by
  induction xs generalizing s with
  | nil => injection h with h; rw [h, List.nil_append]
  | cons x xs ih =>
    cases he : edge r x s with
    | next u => rw [List.cons_append, runEdges_cons r he]; rw [runEdges_cons r he] at h; exact ih h
    | fault f => simp [runEdges, he] at h
    | refused f => simp [runEdges, he] at h

theorem emitted_append {xs : List Inputs} {s t : State} (h : runEdges r xs s = .next t) (ys : List Inputs) :
    emitted r (xs ++ ys) s = emitted r xs s ++ emitted r ys t := by
  induction xs generalizing s with
  | nil => injection h with h; rw [h, List.nil_append, emitted_nil, List.nil_append]
  | cons x xs ih =>
    cases he : edge r x s with
    | next u =>
      rw [List.cons_append, emitted_cons r he, emitted_cons r he, List.append_assoc]
      rw [runEdges_cons r he] at h
      rw [ih h]
    | fault f => simp [runEdges, he] at h
    | refused f => simp [runEdges, he] at h

end Sys2Proof.Machine
end

