-- ==== Sys2Proof/Laws/Frame.lean ====
section
/-! SUPPORT. The checksum function byte by byte, the patched template index by index, and that ByteAt reads the frame. -/

namespace Sys2Proof.Machine

/-! ### csum (40_checksum.md R90) -/

theorem csum_zero (s : List Byte) : csum s 0 = 0 := rfl

/-- One more byte is one more addition. -/
theorem csum_succ {s : List Byte} {n : Nat} {b : Byte} (h : s[n]? = some b) : csum s (n + 1) = csum s n + b := by
  apply BitVec.eq_of_toNat_eq
  simp [csum, List.take_add_one, h]

/-- The checksum reads the first n bytes only. -/
theorem csum_congr {s s' : List Byte} {n : Nat} (h : s.take n = s'.take n) : csum s n = csum s' n := by
  simp [csum, h]

theorem csum_set_of_le (s : List Byte) (b : Byte) {n j : Nat} (h : n ≤ j) : csum (s.set j b) n = csum s n :=
  csum_congr (by rw [List.take_set, List.set_eq_of_length_le (by simp; omega)])

/-! ### The patched template -/

theorem length_patchAll (ps : List (Nat × Byte)) (bs : List Byte) : (patchAll ps bs).length = bs.length := by
  induction ps generalizing bs with
  | nil => rfl
  | cons p ps ih => simp [patchAll, ih]

theorem length_patchedTemplate (rom : TemplateRom) (t : TemplateId) (v : Bool) (d : Digits) :
    (patchedTemplate rom t v d).length = rom.len t := by
  unfold patchedTemplate
  split
  · rw [length_patchAll]; rfl
  · rfl

theorem length_frame (rom : TemplateRom) (t : TemplateId) (v : Bool) (d : Digits) :
    (frame rom t v d).length = rom.len t := by
  rw [frame, List.length_set, length_patchedTemplate]

/-- The patched DRAW_TEMP template, index by index (30_encoding.md R83). -/
theorem patchedTemplate_drawTemp (rom : TemplateRom) (v : Bool) (d : Digits) :
    patchedTemplate rom 2 v d =
      ((((rom.bytes 2).set 4 (rom.opcode 2 v)).set (rom.numOff 2) (asciiTens d.tens)).set (rom.numOff 2 + 1)
        (asciiDigit d.ones)).set (rom.numOff 2 + 3) (asciiDigit d.tenths) := rfl

/-- The patched DRAW_HUM template, index by index (30_encoding.md R83). -/
theorem patchedTemplate_drawHum (rom : TemplateRom) (v : Bool) (d : Digits) :
    patchedTemplate rom 3 v d =
      (((rom.bytes 3).set 4 (rom.opcode 3 v)).set (rom.numOff 3) (asciiTens d.tens)).set (rom.numOff 3 + 1)
        (asciiDigit d.ones) := rfl

theorem patchedTemplate_fixed (rom : TemplateRom) {t : TemplateId} (h : isDraw t = false) (v : Bool) (d : Digits) :
    patchedTemplate rom t v d = rom.bytes t := by simp [patchedTemplate, h]

/-- Away from CSO the frame is the patched template. -/
theorem frame_getElem? (rom : TemplateRom) (t : TemplateId) (v : Bool) (d : Digits) {j : Nat} (h : j ≠ rom.cso t) :
    (frame rom t v d)[j]? = (patchedTemplate rom t v d)[j]? := by
  rw [frame, List.getElem?_set_ne (Ne.symm h)]

/-- At CSO the frame holds the checksum. -/
theorem frame_cso (r : WellFormedRom) {t : TemplateId} (ht : t.toNat ≤ 4) (v : Bool) (d : Digits) :
    (frame r.rom t v d)[r.rom.cso t]? = some (frameChecksum r.rom t v d) := by
  have h := r.len_bounds ht
  rw [frame, List.getElem?_set_self]
  rw [length_patchedTemplate, TemplateRom.cso]
  omega

/-- Up to CSO the frame and the patched template have the same sum. -/
theorem csum_frame_of_le (rom : TemplateRom) (t : TemplateId) (v : Bool) (d : Digits) {n : Nat} (h : n ≤ rom.cso t) :
    csum (frame rom t v d) n = csum (patchedTemplate rom t v d) n := csum_set_of_le _ _ h

/-- Away from CSO, ByteAt presents the patched template's byte (41_packer.md R103). -/
theorem byteAt_eq_patched (r : WellFormedRom) (t : TemplateId) (v : Bool) (d : Digits) (acc : Byte) {i : Index}
    (h : i.toNat < r.rom.len t) (hc : i.toNat ≠ r.rom.cso t) :
    byteAt r.rom t v d acc i = (patchedTemplate r.rom t v d)[i.toNat]? := by
  have hp : r.rom.populated t i = true := decide_eq_true h
  have h2 := r.numOff_drawTemp
  have h3 := r.numOff_drawHum
  cases hd : isDraw t with
  | false =>
    have ht : ¬t = 2#3 := by
      rintro rfl
      cases hd
    simp [byteAt, hp, hc, hd, ht, patchedTemplate_fixed, TemplateRom.read]
  | true =>
    have ht : t = 2 ∨ t = 3 := by simpa [isDraw] using hd
    rcases ht with rfl | rfl
    · have hl : (r.rom.bytes 2).length = r.rom.len 2 := rfl
      rw [patchedTemplate_drawTemp]
      unfold byteAt
      simp only [hp, hc, hd, opcOff, List.getElem?_set, Bool.not_true, Bool.false_eq_true, if_false, Bool.true_and,
        beq_iff_eq, beq_self_eq_true, TemplateRom.read, List.length_set, hl]
      repeat' split
      all_goals first | rfl | omega
    · have hl : (r.rom.bytes 3).length = r.rom.len 3 := rfl
      rw [patchedTemplate_drawHum]
      unfold byteAt
      have ht : ((3 : TemplateId) == 2) = false := rfl
      simp only [hp, hc, hd, ht, opcOff, List.getElem?_set, Bool.not_true, Bool.false_eq_true, if_false, Bool.true_and,
        Bool.false_and, beq_iff_eq, TemplateRom.read, List.length_set, hl]
      repeat' split
      all_goals first | rfl | omega

/-- A busy block whose ACC holds the sum of the frame's bytes so far presents the frame's byte (41_packer.md R106). -/
theorem byteAt_eq_frame (r : WellFormedRom) (t : TemplateId) (v : Bool) (d : Digits) {i : Index}
    (h : i.toNat < r.rom.len t) :
    byteAt r.rom t v d (csum (frame r.rom t v d) (min i.toNat (r.rom.cso t))) i = (frame r.rom t v d)[i.toNat]? := by
  by_cases hc : i.toNat = r.rom.cso t
  · rw [byteAt_cso _ _ _ _ _ h hc, hc, Nat.min_self, frame_cso r (TemplateRom.id_le_of_populated h),
      csum_frame_of_le _ _ _ _ (Nat.le_refl _)]
    rfl
  · rw [byteAt_eq_patched r t v d _ h hc, frame_getElem? _ _ _ _ hc]

end Sys2Proof.Machine
end

