-- ==== Sys2Proof/Laws/Ops.lean ====
section
/-! SUPPORT. Sampling the inputs: what an edge samples and what is left, by whether a draw is already made. -/

namespace Sys2Proof.Machine.State

theorem nextInputs_of_cons {s : State} {inp : Inputs} {rest : List Inputs} (h : s.pending = inp :: rest) :
    s.nextInputs = inp := by simp [nextInputs, h]

theorem dropInputs_of_cons {s : State} {inp : Inputs} {rest : List Inputs} (h : s.pending = inp :: rest) :
    s.dropInputs = { s with pending := rest } := by simp [dropInputs, h]

theorem nextInputs_of_nil {s : State} (h : s.pending = []) : s.nextInputs = Config.freeInputs s.draws := by
  simp [nextInputs, h]

theorem dropInputs_of_nil {s : State} (h : s.pending = []) : s.dropInputs = { s with draws := s.draws + 1 } := by
  simp [dropInputs, h]

/-- After a command word is offered, the next edge samples exactly that word, with no reset. -/
theorem nextInputs_offerNext (w : Word) (s : State) :
    (s.offerNext w).nextInputs.rst = false ∧ (s.offerNext w).nextInputs.cmdValid = true ∧
      (s.offerNext w).nextInputs.cmd = w := ⟨rfl, rfl, rfl⟩

end Sys2Proof.Machine.State
end

