-- ==== Sys2Proof/Laws/PerInstr.lean ====
section
/-! SUPPORT. Statements made per constructor of `Instr`.
Family EncodedOpcode: the word of a well-formed command has the opcode its row of the opcode map gives (30_encoding.md R75). -/

namespace Sys2Proof.Laws.EncodedOpcode

/-- The opcodes the rows of a command allow. -/
def Opcodes : Instr → Nat → Prop
  | .nop, n => n = 0
  | .csumClr, n => n = 1
  | .csumAdd _, n => n = 2
  | .csumChk _, n => n = 3
  | .fpLdd _ _ _, n => n = 4
  | .fpSend _ _, n => n = 5
  | .statClr, n => n = 6
  | .illegal _, n => n ≤ 7
  | .illegalHigh _, n => 8 ≤ n

/-- The encoded word's opcode is the row's. -/
def Statement (i : Instr) : Prop := i.WellFormed → Opcodes i (Word.op (encode i))

theorem nop : Statement .nop := fun _ => rfl

theorem csumClr : Statement .csumClr := fun _ => rfl

theorem csumAdd (imm8 : Byte) : Statement (.csumAdd imm8) := by
  intro _
  have h := imm8.isLt
  simp only [Opcodes, Word.op, encode_csumAdd_toNat]
  omega

theorem csumChk (imm8 : Byte) : Statement (.csumChk imm8) := by
  intro _
  have h := imm8.isLt
  simp only [Opcodes, Word.op, encode_csumChk_toNat]
  omega

theorem fpLdd (t o f : Digit) : Statement (.fpLdd t o f) := by
  intro _
  have ht := t.isLt
  have ho := o.isLt
  have hf := f.isLt
  simp only [Opcodes, Word.op, encode_fpLdd_toNat]
  omega

theorem fpSend (v : Bool) (tid : TemplateId) : Statement (.fpSend v tid) := by
  intro _
  have h := tid.isLt
  have hv := Bool.toNat_le v
  simp only [Opcodes, Word.op, encode_fpSend_toNat]
  omega

theorem statClr : Statement .statClr := fun _ => rfl

theorem illegal (word : Word) : Statement (.illegal word) := by
  intro h
  simp only [Instr.WellFormed, Instr.wf, Bool.and_eq_true, decide_eq_true_eq] at h
  exact h.2

theorem illegalHigh (word : Word) : Statement (.illegalHigh word) := by
  intro h
  simp only [Instr.WellFormed, Instr.wf, decide_eq_true_eq] at h
  exact h

end Sys2Proof.Laws.EncodedOpcode
end

