-- ==== Sys2Proof/Tests/Slice0.lean ====
section
/-! SUPPORT. The model's own tests: ill-formed terms and ROMs, words written out from the spec's encodings, one step per
command with the results of 95_test_vectors.md, and a witness for the hypotheses of every statement.
The example ROM is the invented one of 95_test_vectors.md section 2: test data only. -/

namespace Sys2Proof.Tests

open Sys2Proof.Machine

/-- The next state, if there is one. -/
def nextOf : Host.Outcome State Fault Refusal → Option State
  | .next s => some s
  | .fault _ => none
  | .refused _ => none

/-- The invented ROM of 95_test_vectors.md section 2. -/
def exampleRom : TemplateRom where
  stx := 0x02
  clrTemp := [0x02, 0x10, 0x47, 0x43, 0x21, 0x01, 0x00, 0x10, 0x00, 0x20, 0x00, 0x60, 0x00, 0x0A, 0x00, 0x0D]
  clrHum := [0x02, 0x10, 0x47, 0x43, 0x21, 0x02, 0x00, 0x10, 0x00, 0x40, 0x00, 0x60, 0x00, 0x0A, 0x00, 0x0D]
  drawTemp :=
    { bytes := [0x02, 0x21, 0x47, 0x54, 0x00, 0x01, 0x00, 0x10, 0x00, 0x20, 0x01, 0x00, 0x54, 0x65, 0x6D, 0x70, 0x3A, 0x20,
        0x00, 0x00, 0x2E, 0x00, 0x43, 0x20, 0x20, 0x20, 0x20, 0x20, 0x20, 0x20, 0x0A, 0x00, 0x0D]
      numOff := 18, opcShow := 0x44, opcBack := 0x64 }
  drawHum :=
    { bytes := [0x02, 0x1E, 0x47, 0x54, 0x00, 0x02, 0x00, 0x10, 0x00, 0x40, 0x01, 0x00, 0x48, 0x75, 0x6D, 0x3A, 0x20,
        0x00, 0x00, 0x25, 0x20, 0x20, 0x20, 0x20, 0x20, 0x20, 0x20, 0x0A, 0x00, 0x0D]
      numOff := 17, opcShow := 0x44, opcBack := 0x64 }
  flip := [0x02, 0x08, 0x47, 0x4C, 0x46, 0x01, 0x00, 0x0D]

theorem exampleRom_passes_the_checks : exampleRom.wf = true := by decide

def rom : WellFormedRom := ⟨exampleRom, exampleRom_passes_the_checks⟩

/-! ### Ill-formed terms and ROMs are refused -/

theorem test_wf_refuses_legal_word_as_illegal : (Instr.illegal 0x20FF).wf = false := by decide

theorem test_wf_refuses_high_opcode_as_illegal : (Instr.illegal 0x8000).wf = false := by decide

theorem test_wf_refuses_low_opcode_as_illegalHigh : (Instr.illegalHigh 0x7FFF).wf = false := by decide

theorem test_wf_admits_reserved_bit_word : (Instr.illegal 0x5010).wf = true := by decide

theorem test_w1_refuses_short_clear : { exampleRom with clrHum := exampleRom.flip }.toWellFormed.isNone = true := by decide

theorem test_w2_refuses_long_flip :
    { exampleRom with flip := 0x02 :: List.replicate 63 0x00 ++ [0x0D] }.toWellFormed.isNone = true := by decide

theorem test_w3_refuses_missing_cr :
    { exampleRom with flip := [0x02, 0x08, 0x47, 0x4C, 0x46, 0x01, 0x00, 0x0A] }.toWellFormed.isNone = true := by decide

theorem test_w4_refuses_other_stx : { exampleRom with stx := 0x03 }.toWellFormed.isNone = true := by decide

theorem test_w5_refuses_field_in_header :
    { exampleRom with drawHum := { exampleRom.drawHum with numOff := 4 } }.toWellFormed.isNone = true := by decide

theorem test_w6_refuses_missing_point :
    { exampleRom with drawTemp := { exampleRom.drawTemp with numOff := 17 } }.toWellFormed.isNone = true := by decide

theorem test_w7_refuses_equal_opcodes :
    { exampleRom with drawTemp := { exampleRom.drawTemp with opcBack := 0x44 } }.toWellFormed.isNone = true := by decide

/-! ### Decoding, word by word (30_encoding.md R75; 95_test_vectors.md section 3.3) -/

theorem test_decode_nop : decode 0b0000000000000000 = .nop := by decide

theorem test_decode_csumClr : decode 0b0001000000000000 = .csumClr := by decide

theorem test_decode_csumAdd : decode 0b0010000011111111 = .csumAdd 0xFF := by decide

theorem test_decode_csumChk : decode 0b0011000001011000 = .csumChk 0x58 := by decide

theorem test_decode_fpLdd : decode 0b0100101010111100 = .fpLdd 10 11 12 := by decide

theorem test_decode_fpSend : decode 0b0101000000001010 = .fpSend true 2 := by decide

theorem test_decode_statClr : decode 0b0110000000000000 = .statClr := by decide

theorem test_decode_illegal : decode 0b0101100000000010 = .illegal 0x5802 := by decide

theorem test_decode_illegalHigh : decode 0b1111111111111111 = .illegalHigh 0xFFFF := by decide

theorem test_table_word : decodeTableWord 16 0x500F = some (.fpSend true 7) := by decide

theorem test_assemble_send : assembleText "FP.SEND DRAW_TEMP, BACK" = .ok [0x500A] := by decide

theorem test_assemble_refuses : assembleText "CSUM.ADD 256" = .error .outOfRange := by decide

/-! ### One step per command (95_test_vectors.md sections 3.2 to 3.8) -/

/-- One step that accepts the word, from the state. -/
def accept (w : Nat) (s : State) : Option State := nextOf (step (s.withFetchWord 16 w))

/-- The reset state with some elements set, as the vectors give them. -/
def before (acc : Byte) (matched errIll errDig : Bool) : State :=
  { State.reset with acc := acc, dig := ⟨1, 8, 5⟩, matched := matched, errIll := errIll, errDig := errDig }

theorem test_nop : accept 0x0000 (before 0x33 true false true) = some (before 0x33 true false true) := by decide

theorem test_csumClr : accept 0x1000 (before 0x7B true false false) = some (before 0x00 true false false) := by decide

theorem test_csumAdd_wraps : accept 0x20FF (before 0xFF false false false) = some (before 0xFE false false false) := by decide

theorem test_csumChk_equal : accept 0x3058 (before 0x58 false false false) = some (before 0x58 true false false) := by decide

theorem test_csumChk_differs : accept 0x3059 (before 0x58 true false false) = some (before 0x58 false false false) := by decide

theorem test_fpLdd_loads : (accept 0x4230 (before 0x00 false false true)).map (fun s => (s.dig, s.errDig)) =
    some (⟨2, 3, 0⟩, true) := by decide

theorem test_fpLdd_all_or_nothing : (accept 0x41A5 (before 0x5A false false false)) = some (before 0x5A false false true) := by
  decide

theorem test_fpSend_starts : (accept 0x500B (before 0x42 true false false)).map
    (fun s => (s.acc, s.tsel, s.var, s.idx, s.busy, s.status)) = some (0x00, 3, true, 0, true, 0x03) := by decide

theorem test_fpSend_illegal_variant : accept 0x500C (before 0x42 false false false) = some (before 0x42 false true false) := by
  decide

theorem test_statClr_keeps_match : (accept 0x6000 (before 0x00 true true true)).map State.status = some 0x02 := by decide

theorem test_illegal_keeps_acc : accept 0x2133 (before 0x33 true false false) = some (before 0x33 true true false) := by decide

theorem test_illegalHigh : (accept 0x8000 (before 0x00 false false true)).map State.status = some 0x0C := by decide

/-! ### Frames and emission (95_test_vectors.md sections 3.6, 3.9 and 3.10) -/

theorem test_frame_drawTemp : frame exampleRom 2 false ⟨1, 8, 5⟩ =
    [0x02, 0x21, 0x47, 0x54, 0x44, 0x01, 0x00, 0x10, 0x00, 0x20, 0x01, 0x00, 0x54, 0x65, 0x6D, 0x70, 0x3A, 0x20, 0x31, 0x38,
      0x2E, 0x35, 0x43, 0x20, 0x20, 0x20, 0x20, 0x20, 0x20, 0x20, 0x0A, 0x1D, 0x0D] := by decide

theorem test_frame_drawHum_back : frame exampleRom 3 true ⟨0, 5, 0⟩ =
    [0x02, 0x1E, 0x47, 0x54, 0x64, 0x02, 0x00, 0x10, 0x00, 0x40, 0x01, 0x00, 0x48, 0x75, 0x6D, 0x3A, 0x20, 0x20, 0x35, 0x25,
      0x20, 0x20, 0x20, 0x20, 0x20, 0x20, 0x20, 0x0A, 0x5A, 0x0D] := by decide

/-- K[2] and K[3] of 95_test_vectors.md section 2. -/
theorem test_fixedSum : fixedSum exampleRom 2 = 0x3B ∧ fixedSum exampleRom 3 = 0xA1 := by decide

/-- A block sending the FLIP frame, `k` bytes into it. -/
def flipping (acc : Byte) (k : Index) : State := { State.reset with tsel := 4, acc := acc, idx := k, busy := true }

/-- The host offers nothing and the sink is ready. -/
def go : Inputs := ⟨false, 0x0000, false, true⟩

/-- The host offers nothing and the sink is not ready. -/
def hold : Inputs := ⟨false, 0x0000, false, false⟩

theorem test_transfer_adds : nextOf (edge rom go (flipping 0x51 3)) = some (flipping 0x9D 4) := by decide

theorem test_checksum_byte_not_added : nextOf (edge rom go (flipping 0xE4 6)) = some (flipping 0xE4 7) := by decide

theorem test_last_byte_ends : nextOf (edge rom go (flipping 0xE4 7)) =
    some { State.reset with tsel := 4, acc := 0xE4 } := by decide

theorem test_outputs_at_cso : outputs exampleRom false (flipping 0xE4 6) =
    { cmdReady := false, outData := some 0xE4, outValid := true, outLast := false, accO := 0xE4, statusO := 0x01 } := by decide

theorem test_reset_beats_transfer : nextOf (edge rom { go with rst := true } (flipping 0x6A 3)) = some State.reset ∧
    transferred exampleRom { go with rst := true } (flipping 0x6A 3) = none := by decide

/-! ### Witnesses: for every statement with hypotheses, a state and operands that meet them together -/

/-- A command word offered to the sink-ready block. -/
def offer (w : Word) : Inputs := offering w true

theorem witness_ResetEdges : ∀ j ∈ [⟨true, 0x6000, true, true⟩, { hold with rst := true }], j.rst = true := by decide

theorem witness_Outputs : ((flipping 0 7).tsel.toNat ≤ 4) ∧ (outputs exampleRom false (flipping 0 7)).outValid = true ∧
    (outputs exampleRom false State.reset).outValid = false := by decide

theorem witness_DecodeOfEncode : (Instr.illegal 0x0001).WellFormed ∧ (Instr.illegal 0x7FFF).WellFormed ∧
    (Instr.illegalHigh 0x8000).WellFormed ∧ (Instr.fpSend true 7).WellFormed := by decide

theorem witness_OpcodeMap : (⟨"FP.SEND", 0x5000, 0xFFF0⟩ ∈ opcodeMap ∧
    (⟨"FP.SEND", 0x5000, 0xFFF0⟩ : OpcodeRow).covers 0x500F = true) ∧
    ∀ r ∈ opcodeMap, r.covers 0x5010 = false := by decide

/-- For the decoding clause of each command's statement: its own word and a word with a reserved bit, where there is one. -/
theorem witness_opcode_clauses : (∀ w ∈ [(0x0000 : Word), 0x0FFF], w.toNat / 4096 = 0) ∧
    (∀ w ∈ [(0x1000 : Word), 0x1FFF], w.toNat / 4096 = 1) ∧ (∀ w ∈ [(0x20FF : Word), 0x2100], w.toNat / 4096 = 2) ∧
    (∀ w ∈ [(0x30FF : Word), 0x3100], w.toNat / 4096 = 3) ∧ (∀ w ∈ [(0x4000 : Word), 0x4FFF], w.toNat / 4096 = 4) ∧
    (∀ w ∈ [(0x500F : Word), 0x5010], w.toNat / 4096 = 5) ∧ (∀ w ∈ [(0x6000 : Word), 0x6FFF], w.toNat / 4096 = 6) := by simp

theorem witness_FpLdd : ((9 : Digit).toNat ≤ 9 ∧ (0 : Digit).toNat ≤ 9) ∧ 9 < (10 : Digit).toNat := by decide

theorem witness_FpSend : ((4 : TemplateId).toNat ≤ 4 ∧ false = false) ∧ ((3 : TemplateId).toNat ≤ 4 ∧ (3 : TemplateId).toNat = 3) ∧
    5 ≤ (5 : TemplateId).toNat ∧ (true = true ∧ (4 : TemplateId).toNat = 4) := by decide

theorem witness_Illegal : Word.isIllegal 0x7000 = true ∧ Word.isIllegal 0x6001 = true ∧ Word.isIllegal 0xFFFF = true := by decide

theorem witness_raises : raisesErrIll (.illegal 0x7000) ∧ raisesErrDig (.fpLdd 0 0 10) := by
  refine ⟨trivial, ?_⟩
  simp [raisesErrDig]

theorem witness_ErrorFlagsInfluenceNothing :
    runEdges rom [offer 0x7000, offer 0x5004, go] State.reset =
      .next { State.reset with errIll := true, tsel := 4, acc := 0x02, idx := 1, busy := true } := by rfl

theorem witness_CommandsWriteOnlyTheirElements :
    exec (.csumAdd 0x01) State.reset = .next { State.reset with acc := 0x01 } := by rfl

theorem witness_Edge_transfer : go.rst = false ∧ (flipping 0xE4 7).busy = true ∧ go.outReady = true ∧
    byteAt exampleRom (flipping 0xE4 7).tsel (flipping 0xE4 7).var (flipping 0xE4 7).dig (flipping 0xE4 7).acc
      (flipping 0xE4 7).idx = some 0x0D := by decide

theorem witness_Edge_stall : hold.rst = false ∧ (flipping 0x02 1).busy = true ∧ hold.outReady = false := by decide

theorem witness_Edge_idle : State.reset.busy = false ∧ hold.cmdValid = false ∧ (offer 0x0000).cmdValid = true ∧
    (offer 0x0000).rst = false := by decide

theorem witness_StepRuns : { State.reset with pending := [offer 0x2020] }.pending = offer 0x2020 :: [] ∧
    (offer 0x2020).rst = false ∧ State.reset.busy = false ∧ (offer 0x2020).cmdValid = true ∧
    decode (offer 0x2020).cmd = .csumAdd 0x20 ∧ State.reset.pending = [] := by decide

theorem witness_CoreRun : 2 ≤ { State.reset with pending := [offer 0x2020, go] }.pending.length := by decide

theorem witness_Busy : (flipping 0x00 0).busy = true := by decide

theorem witness_Stalled : (flipping 0x02 1).busy = true ∧ NoReset [hold, { hold with cmd := 0x1000, cmdValid := true }] ∧
    ∀ inp ∈ [hold, { hold with cmd := 0x1000, cmdValid := true }], inp.outReady = false := by
  refine ⟨rfl, ?_, by decide⟩
  unfold NoReset
  decide

theorem flipping_legal : State.Legal exampleRom (flipping 0xE4 7) :=
  ⟨by decide, by decide, by decide, by decide, by decide⟩

theorem witness_EveryStep_edge : State.Good exampleRom (flipping 0xE4 7) ∧
    edge rom go (flipping 0xE4 7) = .next { State.reset with tsel := 4, acc := 0xE4 } :=
  ⟨⟨flipping_legal, fun _ => by decide⟩, rfl⟩

theorem witness_EveryStep_step : State.Good Config.templateRom.rom { State.reset with pending := [offer 0x2020] } ∧
    step { State.reset with pending := [offer 0x2020] } = .next { State.reset with acc := 0x20 } :=
  ⟨⟨⟨by decide, by decide, by decide, by decide, fun h => nomatch h⟩, fun h => nomatch h⟩, rfl⟩

theorem witness_LegalStates : State.Legal exampleRom (flipping 0xE4 7) ∧ State.Legal Config.templateRom.rom State.reset :=
  ⟨flipping_legal, by decide, by decide, by decide, by decide, fun h => nomatch h⟩

theorem witness_UnpopulatedRead : edge rom go { State.reset with tsel := 5, busy := true } = .fault .unpopulatedRomRead := by rfl

theorem witness_IllFormedRom : { exampleRom with stx := 0x03 }.w4 = false ∧ exampleRom.w1 = true ∧ exampleRom.w2 = true ∧
    exampleRom.w3 = true ∧ exampleRom.w4 = true ∧ exampleRom.w5 = true ∧ exampleRom.w6 = true ∧ exampleRom.w7 = true ∧
    State.Legal exampleRom (flipping 0xE4 7) :=
  ⟨by decide, by decide, by decide, by decide, by decide, by decide, by decide, by decide, flipping_legal⟩

theorem witness_Digits : (9 : Digit).toNat ≤ 9 ∧ (0 : Digit).toNat = 0 ∧ (9 : Digit).toNat ≠ 0 := by decide

/-- An index for each clause of ByteAt's statement, in the example DRAW_TEMP, whose last index is 32. -/
theorem witness_ByteAt : (∀ i ∈ [(31 : Index), 4, 18, 19, 21, 32], i.toNat < exampleRom.len 2) ∧
    (31 : Index).toNat = exampleRom.cso 2 ∧ (18 : Index).toNat = exampleRom.numOff 2 ∧
    (19 : Index).toNat = exampleRom.numOff 2 + 1 ∧ (21 : Index).toNat = exampleRom.numOff 2 + 3 ∧
    (32 : Index).toNat ≠ exampleRom.cso 2 := by decide

theorem witness_FrameLayout : (4 : TemplateId).toNat ≤ 4 ∧ (2 : TemplateId).toNat ≤ 4 := by decide

/-- The seven edges before the last of the example FLIP frame, one stall among them. -/
def flipEdges : List Inputs := [go, hold, go, go, go, go, go, go]

theorem flipEdges_noReset : NoReset (flipEdges ++ [go]) := by
  unfold NoReset flipEdges
  decide

theorem witness_SentFrame : sendLegal false 4 = true ∧
    exec (.fpSend false 4) (before 0x42 true false false) = .next ((before 0x42 true false false).startFrame false 4) ∧
    NoReset (flipEdges ++ [go]) ∧ go.outReady = true ∧ readyCount flipEdges + 1 = exampleRom.len 4 :=
  ⟨by decide, rfl, flipEdges_noReset, rfl, by decide⟩

theorem witness_AccumulatorKeeps : sendLegal false 4 = true ∧
    exec (.fpSend false 4) State.reset = .next (State.reset.startFrame false 4) ∧ NoReset (flipEdges ++ [go]) ∧
    go.outReady = true ∧ readyCount flipEdges + 1 = exampleRom.len 4 ∧ NoReset [hold, offer 0x30E4, offer 0x5005] ∧
    ∀ inp ∈ [hold, offer 0x30E4, offer 0x5005], KeepsAcc inp := by
  refine ⟨by decide, rfl, flipEdges_noReset, rfl, by decide, ?_, ?_⟩
  · unfold NoReset
    decide
  · intro inp h
    simp only [List.mem_cons, List.not_mem_nil, or_false] at h
    rcases h with rfl | rfl | rfl
    · intro hv
      cases hv
    · have hd : decode (offer 0x30E4).cmd = .csumChk 0xE4 := by decide
      intro _
      rw [hd]
      exact ⟨by decide, by simp, by simp⟩
    · have hd : decode (offer 0x5005).cmd = .fpSend false 5 := by decide
      intro _
      rw [hd]
      refine ⟨by decide, by simp, fun v tid hs => ?_⟩
      injection hs with h1 h2
      subst h1
      subst h2
      decide

theorem witness_PartOfAFrame : sendLegal false 4 = true ∧
    exec (.fpSend false 4) State.reset = .next (State.reset.startFrame false 4) ∧ NoReset (flipEdges ++ []) ∧
    readyCount flipEdges < exampleRom.len 4 ∧ ({ go with rst := true } : Inputs).rst = true :=
  ⟨by decide, rfl, fun j hj => flipEdges_noReset j (by simp at hj; simp [hj]), by decide, rfl⟩

theorem witness_SameDigits : sendLegal false 4 = true ∧
    (before 0x42 true false false).dig = (before 0x00 false true true).dig ∧
    exec (.fpSend false 4) (before 0x42 true false false) = .next ((before 0x42 true false false).startFrame false 4) ∧
    exec (.fpSend false 4) (before 0x00 false true true) = .next ((before 0x00 false true true).startFrame false 4) ∧
    NoReset (flipEdges ++ [go]) ∧ NoReset (List.replicate 8 go) ∧
    readyCount (flipEdges ++ [go]) = readyCount (List.replicate 8 go) ∧
    readyCount (flipEdges ++ [go]) ≤ exampleRom.len 4 := by
  refine ⟨by decide, rfl, rfl, rfl, flipEdges_noReset, ?_, by decide, by decide⟩
  unfold NoReset
  decide

theorem witness_draw_and_fixed_ids : ((3 : TemplateId) = 2 ∨ (3 : TemplateId) = 3) ∧
    ((4 : TemplateId) = 0 ∨ (4 : TemplateId) = 1 ∨ (4 : TemplateId) = 4) := by decide

theorem witness_ChecksumLaws : [0x11, 0x22, 0xFF].take 2 = [(0x11 : Byte), 0x22, 0x00].take 2 ∧
    [(0x10 : Byte), 0x20].Perm [0x20, 0x10] ∧ 1 < 2 ∧ [(0x11 : Byte), 0x22][1]? = some 0x22 ∧ (0x22 : Byte) ≠ 0x21 ∧
    0 < 2 ∧ 0 ≠ 1 ∧ [(0x11 : Byte), 0x22][0]? = some 0x11 := by decide

theorem witness_Accumulator : accepts (offer 0x1000) (before 0x42 false false false) = true ∧
    decode (offer 0x1000).cmd = .csumClr ∧ NoReset [offer 0x2010, hold, offer 0x7000, offer 0x2020] ∧
    ∀ inp ∈ [offer 0x2010, hold, offer 0x7000, offer 0x2020], KeepsHostSum inp := by
  refine ⟨by decide, by decide, ?_, ?_⟩
  · unfold NoReset
    decide
  · intro inp h
    simp only [List.mem_cons, List.not_mem_nil, or_false] at h
    rcases h with rfl | rfl | rfl | rfl <;> intro _ <;>
      exact ⟨by decide, fun v tid => by cases v <;> revert tid <;> decide⟩

theorem witness_VerifyLine : State.reset.busy = false := by decide

/-- A line of each form, with operands at the ends of their ranges, that assembles, and the first ones out of range. -/
theorem witness_Assembler : assembleCommand .nop = .ok 0x0000 ∧ assembleCommand .csumClr = .ok 0x1000 ∧
    assembleCommand (.csumAdd 255) = .ok 0x20FF ∧ assembleCommand (.csumChk 0) = .ok 0x3000 ∧
    assembleCommand (.fpLdd 1 10 15) = .ok 0x41AF ∧ assembleCommand (.fpSend 7 1) = .ok 0x500F ∧
    assembleCommand .statClr = .ok 0x6000 ∧ assembleCommand (.word 65535) = .ok 0xFFFF ∧
    assembleCommand (.csumAdd 256) = .error .outOfRange ∧ assembleCommand (.word 65536) = .error .outOfRange := by decide

theorem witness_CommandsTake : (Instr.fpSend false 4).WellFormed ∧ accepts (offer 0x5004) State.reset = true ∧
    (offer 0x5004).cmd = encode (.fpSend false 4) ∧ NoReset (List.replicate 8 go) ∧
    (∀ inp ∈ List.replicate 8 go, inp.outReady = true) ∧
    (List.replicate 8 go).length + 1 = commandEdges exampleRom (.fpSend false 4) ∧
    (List.replicate 7 go).length + 1 < commandEdges exampleRom (.fpSend false 4) := by
  refine ⟨by decide, by decide, by decide, ?_, by decide, by decide, by decide⟩
  unfold NoReset
  decide

theorem witness_FairSink : State.Legal exampleRom (flipping 0xE4 7) ∧ (flipping 0xE4 7).busy = true ∧
    (∀ n : Nat, ((fun _ => go) n : Inputs).rst = false) ∧ ∀ n : Nat, ∃ m, n ≤ m ∧ ((fun _ => go) m : Inputs).outReady = true :=
  ⟨flipping_legal, rfl, fun _ => rfl, fun n => ⟨n, Nat.le_refl n, rfl⟩⟩

theorem witness_UpdTemp : State.reset.busy = false ∧ (1 : Digit).toNat ≤ 9 ∧ (8 : Digit).toNat ≤ 9 ∧ (5 : Digit).toNat ≤ 9 ∧
    (∀ inp ∈ List.replicate 16 go, inp.rst = false) ∧ (∀ inp ∈ List.replicate 16 go, inp.outReady = true) ∧
    (∀ inp ∈ List.replicate 33 go, inp.rst = false) ∧ (∀ inp ∈ List.replicate 33 go, inp.outReady = true) ∧
    (List.replicate 16 go).length = 16 ∧ (List.replicate 33 go).length = exampleRom.len 2 := by decide

end Sys2Proof.Tests
end

section
/-! PROOFS. 00_scope.md R7, R8: a step of the machine and the input draw it takes, and runs of the machine as runs of edges. -/

namespace Sys2Proof.Machine

/-! ### Edges that stop -/

/-- An edge that would transfer from an unpopulated ROM address stops with a fault. -/
theorem edge_unpopulated (r : WellFormedRom) {inp : Inputs} (hr : inp.rst = false) (ho : inp.outReady = true) {s : State}
    (hb : s.busy = true) (hp : s.presented r.rom = none) : edge r inp s = .fault .unpopulatedRomRead := by
  simp [edge_busy r hr hb, emit, ho, hp]

/-- An edge answers a next state, or it would transfer from an unpopulated ROM address. -/
theorem edge_next_or_unpopulated (r : WellFormedRom) (inp : Inputs) (s : State) :
    (∃ t, edge r inp s = .next t) ∨
    (inp.rst = false ∧ inp.outReady = true ∧ s.busy = true ∧ s.presented r.rom = none) := by
  cases hr : inp.rst with
  | true => exact .inl ⟨_, edge_reset r hr s⟩
  | false =>
    cases hb : s.busy with
    | true =>
      rw [edge_busy r hr hb]
      rcases emit_cases r.rom inp.outReady s with ⟨_, he⟩ | ⟨_, _, _, he⟩ | ⟨ho, hp, _⟩
      · exact .inl ⟨_, he⟩
      · exact .inl ⟨_, he⟩
      · exact .inr ⟨rfl, ho, rfl, hp⟩
    | false =>
      cases hv : inp.cmdValid with
      | true => rw [edge_accept r hr hv hb]; exact .inl (exec_next _ s)
      | false => exact .inl ⟨s, edge_idle r hr hv hb⟩

theorem runEdges_cons_fault (r : WellFormedRom) {inp : Inputs} {s : State} {f : Fault} (h : edge r inp s = .fault f)
    (rest : List Inputs) : runEdges r (inp :: rest) s = .fault f := by simp [runEdges, h]

/-! ### One step -/

/-- A step with a draw already made is the edge with that draw. -/
theorem step_of_cons {s : State} {inp : Inputs} {rest : List Inputs} (h : s.pending = inp :: rest) :
    step s = edge Config.templateRom inp { s with pending := rest } := by
  rw [step, State.nextInputs_of_cons h, State.dropInputs_of_cons h]

/-- A step with no draw left is the edge with a free draw. -/
theorem step_of_nil {s : State} (h : s.pending = []) :
    step s = edge Config.templateRom (Config.freeInputs s.draws) { s with draws := s.draws + 1 } := by
  rw [step, State.nextInputs_of_nil h, State.dropInputs_of_nil h]

/-- Cutting a word to 16 bits gives the word. -/
@[simp] theorem tableWord_toNat (w : Word) : tableWord 16 w.toNat = w := by
  rw [tableWord, Nat.mod_eq_of_lt w.isLt, BitVec.ofNat_toNat, BitVec.setWidth_eq]

/-- The step after the host offers a word executes the decoded word in the idle block. -/
theorem step_offerNext (w : Word) (s : State) :
    step (s.offerNext w) = exec (decode w)
      { s with pending := s.pending.tail, busy := false, idx := if s.busy = true then 0 else s.idx } := by
  rw [step_of_cons (State.offerNext_pending w s)]
  exact edge_accept Config.templateRom rfl rfl rfl

/-! ### Many steps -/

theorem core_run_of_next {s t : State} (h : step s = .next t) (n : Nat) :
    Host.Core.run core (n + 1) s = Host.Core.run core n t := by
  simp [Host.Core.run, core, h]

theorem core_run_of_fault {s : State} {f : Fault} (h : step s = .fault f) (n : Nat) :
    Host.Core.run core (n + 1) s = .fault f := by
  simp [Host.Core.run, core, h]

/-- Settles O22, by induction on the number of steps. Where an edge answers a next state, that state has the same draws left;
where it stops, it stops whatever draws are left, and so does the run. -/
theorem coreRunFollowsTheDraws : Obligations.CoreRunFollowsTheDraws := by
  unfold Obligations.CoreRunFollowsTheDraws
  intro n
  induction n with
  | zero => intro s _; rfl
  | succ n ih =>
    intro s hn
    obtain ⟨inp, rest, hp⟩ := List.exists_cons_of_length_pos (Nat.zero_lt_of_lt hn)
    have hlen : n ≤ rest.length := by simpa [hp] using hn
    rw [hp, List.take_succ_cons, List.drop_succ_cons]
    have hstep := step_of_cons hp
    rcases edge_next_or_unpopulated Config.templateRom inp { s with pending := rest } with ⟨t, ht⟩ | ⟨hr, ho, hb, hu⟩
    · obtain ⟨hpend, hdraws⟩ := edge_draws _ ht
      have hedge : edge Config.templateRom inp { s with pending := rest.drop n } =
          .next { t with pending := rest.drop n } := by
        simpa [hdraws] using edge_withDraws _ ht (rest.drop n) s.draws
      rw [core_run_of_next (hstep.trans ht), runEdges_cons _ hedge, ih t (hpend ▸ hlen), hpend]
    · have hedge : edge Config.templateRom inp { s with pending := rest.drop n } = .fault .unpopulatedRomRead :=
        edge_unpopulated _ hr ho hb hu
      have hrun := core_run_of_fault (hstep.trans (edge_unpopulated _ hr ho hb hu)) n
      exact hrun.trans (runEdges_cons_fault _ hedge (rest.take n)).symm

/-- Settles O21: the step's sampling, then the acceptance case of R104. -/
theorem stepRunsTheDecodedCommand : Obligations.StepRunsTheDecodedCommand := by
  unfold Obligations.StepRunsTheDecodedCommand
  refine ⟨?accept, fun _ _ _ => step_of_cons, fun _ => step_of_nil, ?fetch⟩
  case accept =>
    rintro s inp rest _ hp hr hb hv rfl
    rw [step_of_cons hp]
    exact edge_accept Config.templateRom hr hv hb
  case fetch =>
    intro s w
    rw [State.withFetchWord, tableWord_toNat]
    exact step_offerNext w s

end Sys2Proof.Machine
end

section
/-! PROOFS. 10_state.md: the reset values, STATUS and the outputs; what a command writes; stalls and partly sent frames; and
the invariant that every edge keeps. -/

namespace Sys2Proof.Machine

/-! ### STATUS and the outputs (10_state.md R30, R33, R37) -/

/-- Settles O3: STATUS reads four flags and no other element, so the sixteen values of the flags decide it. -/
theorem statusViewIsTheFourFlags : Obligations.StatusViewIsTheFourFlags := by
  unfold Obligations.StatusViewIsTheFourFlags
  intro s
  unfold State.status
  generalize s.busy = busy, s.matched = matched, s.errIll = errIll, s.errDig = errDig
  revert busy matched errIll errDig
  decide

theorem cmdReady_iff (rst : Bool) (s : State) : s.cmdReady rst = true ↔ s.busy = false ∧ rst = false := by
  simp [State.cmdReady]

theorem outValid_iff (rst : Bool) (s : State) : s.outValid rst = true ↔ s.busy = true ∧ rst = false := by
  simp [State.outValid]

theorem outputs_of_outValid (rom : TemplateRom) {rst : Bool} {s : State} (h : s.outValid rst = true) :
    outputs rom rst s = ⟨s.cmdReady rst, s.presented rom, true, s.atLast rom, s.acc, s.status⟩ := by
  simp [outputs, h]

theorem outputs_of_not_outValid (rom : TemplateRom) {rst : Bool} {s : State} (h : s.outValid rst = false) :
    outputs rom rst s = ⟨s.cmdReady rst, some 0x00, false, false, s.acc, s.status⟩ := by
  simp [outputs, h]

/-- The last byte of a template that has a length is at `L - 1` (10_state.md R33). -/
theorem atLast_iff (r : WellFormedRom) {s : State} (h : s.tsel.toNat ≤ 4) :
    s.atLast r.rom = true ↔ s.idx.toNat = r.rom.len s.tsel - 1 := by
  have hlen := r.len_bounds h
  rw [State.atLast, beq_iff_eq]
  omega

/-- Settles O1: the values as written, and the outputs of a block that presents no byte. -/
theorem resetStateHoldsTheResetValues : Obligations.ResetStateHoldsTheResetValues := by
  unfold Obligations.ResetStateHoldsTheResetValues
  exact ⟨by decide, by decide, fun rom => outputs_of_not_outValid rom.rom rfl⟩

/-- Settles O4: the outputs are known from `out_valid`, so each clause is read off in its two cases. -/
theorem outputsAndHandshakes : Obligations.OutputsAndHandshakes := by
  unfold Obligations.OutputsAndHandshakes
  intro rom inp s
  refine ⟨cmdReady_iff _ s, outValid_iff _ s, ?data, ?noData, ?last, rfl, rfl, ?exclusive, ?accept, ?transfer⟩
  case data => exact fun h => by rw [outputs_of_outValid rom.rom h]; rfl
  case noData => exact fun h => by rw [outputs_of_not_outValid rom.rom h]
  case last =>
    intro ht
    rw [← atLast_iff rom ht]
    exact Bool.and_eq_true_iff
  case exclusive =>
    rintro ⟨hready, hvalid⟩
    have hidle := ((cmdReady_iff inp.rst s).1 hready).1
    have hbusy := ((outValid_iff inp.rst s).1 hvalid).1
    rw [hidle] at hbusy
    cases hbusy
  case accept => exact Bool.and_eq_true_iff
  case transfer =>
    intro b
    simp [transferred, and_assoc]

/-! ### What a command writes (10_state.md R20) -/

/-- Settles O19: in each case of what a command does, the elements that differ are those its operation writes. -/
theorem commandsWriteOnlyTheirElements : Obligations.CommandsWriteOnlyTheirElements := by
  unfold Obligations.CommandsWriteOnlyTheirElements
  intro i s t h
  rcases exec_cases h with ⟨rfl, rfl⟩ | ⟨rfl, rfl⟩ | ⟨b, rfl, rfl⟩ | ⟨b, rfl, rfl⟩ | ⟨a, o, f, rfl, _, rfl⟩ |
    ⟨a, o, f, rfl, _, rfl⟩ | ⟨v, tid, rfl, _, rfl⟩ | ⟨v, tid, rfl, _, rfl⟩ | ⟨rfl, rfl⟩ | ⟨⟨w, rfl⟩ | ⟨w, rfl⟩, rfl⟩
  all_goals simp [Instr.mnemonic]

/-! ### A stalled block (10_state.md R35) -/

theorem noReset_cons {inp : Inputs} {inps : List Inputs} :
    NoReset (inp :: inps) ↔ inp.rst = false ∧ NoReset inps := List.forall_mem_cons

theorem runEdges_stalled (r : WellFormedRom) {inps : List Inputs} {s : State} (hb : s.busy = true) (hn : NoReset inps)
    (ho : ∀ inp ∈ inps, inp.outReady = false) : runEdges r inps s = .next s := by
  induction inps with
  | nil => rfl
  | cons inp inps ih =>
    obtain ⟨hr, hn⟩ := noReset_cons.1 hn
    obtain ⟨hinp, ho⟩ := List.forall_mem_cons.1 ho
    rw [runEdges_cons r (edge_stall r hr hinp hb)]
    exact ih hn ho

/-- Settles O24, by induction on the edges, each of them a stall. -/
theorem stalledBlockChangesNothing : Obligations.StalledBlockChangesNothing := by
  unfold Obligations.StalledBlockChangesNothing
  intro rom inps s hb hn ho
  exact ⟨runEdges_stalled rom hb hn ho, emitted_of_not_ready rom ho s⟩

/-! ### A frame of which k bytes have left (10_state.md R36) -/

/-- The state with `k` bytes of its frame sent: IDX counts them and ACC is the sum of those before CSO. -/
def State.afterBytes (rom : TemplateRom) (k : Nat) (s : State) : State :=
  { s with
    acc := csum (frame rom s.tsel s.var s.dig) (min k (rom.cso s.tsel))
    idx := BitVec.ofNat 6 k }

/-- A new frame has sent none of its bytes. -/
theorem afterBytes_zero_startFrame (rom : TemplateRom) (v : Bool) (tid : TemplateId) (s : State) :
    (s.startFrame v tid).afterBytes rom 0 = s.startFrame v tid := by
  simp [State.afterBytes, csum_zero, State.startFrame]

/-- The sum of the bytes before CSO takes in one more byte up to CSO and none from there on (41_packer.md R106). -/
theorem csum_min_succ {bs : List Byte} {k : Nat} {b : Byte} (h : bs[k]? = some b) (cso : Nat) :
    csum bs (min (k + 1) cso) = if k < cso then csum bs (min k cso) + b else csum bs (min k cso) := by
  split
  next hk => rw [Nat.min_eq_left hk, Nat.min_eq_left (Nat.le_of_lt hk), csum_succ h]
  next hk => rw [Nat.min_eq_right (by omega), Nat.min_eq_right (by omega)]

/-- With one byte more sent, IDX is one more, and ACC takes that byte in when it lies before CSO. -/
theorem afterBytes_succ (rom : TemplateRom) {s : State} {k : Nat} {b : Byte}
    (hf : (frame rom s.tsel s.var s.dig)[k]? = some b) :
    s.afterBytes rom (k + 1) =
      { s with
        acc := if k < rom.cso s.tsel then (s.afterBytes rom k).acc + b else (s.afterBytes rom k).acc
        idx := (s.afterBytes rom k).idx + 1 } := by
  rw [State.afterBytes, csum_min_succ hf, BitVec.ofNat_add]
  rfl

section

variable (r : WellFormedRom) {s : State} {k : Nat} {b : Byte}

/-- IDX reaches every index of a frame (10_state.md R25). -/
theorem afterBytes_idx_toNat (hk : k < r.rom.len s.tsel) : (s.afterBytes r.rom k).idx.toNat = k :=
  Nat.mod_eq_of_lt (Nat.lt_of_lt_of_le hk (r.len_le s.tsel))

/-- The block presents the frame's bytes in order (41_packer.md R106). -/
theorem presented_afterBytes (hk : k < r.rom.len s.tsel) :
    (s.afterBytes r.rom k).presented r.rom = (frame r.rom s.tsel s.var s.dig)[k]? := by
  have hidx : (BitVec.ofNat 6 k).toNat = k := afterBytes_idx_toNat r hk
  have h := byteAt_eq_frame r s.tsel s.var s.dig (i := BitVec.ofNat 6 k) (by rwa [hidx])
  rwa [hidx] at h

/-- Before the last byte, a transfer counts one byte more. -/
theorem transferByte_afterBytes (hk : k + 1 < r.rom.len s.tsel)
    (hf : (frame r.rom s.tsel s.var s.dig)[k]? = some b) :
    (s.afterBytes r.rom k).transferByte r.rom b = s.afterBytes r.rom (k + 1) := by
  have hidx := afterBytes_idx_toNat r (s := s) (Nat.lt_of_succ_lt hk)
  have hlast : (s.afterBytes r.rom k).atLast r.rom = false := by
    rw [State.atLast, hidx, beq_eq_false_iff_ne]
    exact Nat.ne_of_lt hk
  simp only [State.transferByte, hidx, hlast, Bool.false_eq_true, if_false]
  rw [afterBytes_succ r.rom hf]
  rfl

/-- With `k` bytes sent, edges without reset of which some are ready send that many of the next bytes, as long as the frame
does not end. -/
theorem runEdges_afterBytes {inps : List Inputs} (hb : s.busy = true) (hn : NoReset inps)
    (hk : k + readyCount inps < r.rom.len s.tsel) :
    emitted r inps (s.afterBytes r.rom k) = ((frame r.rom s.tsel s.var s.dig).drop k).take (readyCount inps) ∧
    runEdges r inps (s.afterBytes r.rom k) = .next (s.afterBytes r.rom (k + readyCount inps)) := by
  induction inps generalizing k with
  | nil => exact ⟨rfl, rfl⟩
  | cons inp inps ih =>
    obtain ⟨hr, hn⟩ := noReset_cons.1 hn
    cases ho : inp.outReady with
    | false =>
      have hcount : readyCount (inp :: inps) = readyCount inps := List.countP_cons_of_neg (by simp [ho])
      have hedge := edge_stall r hr ho (s := s.afterBytes r.rom k) hb
      rw [hcount] at hk ⊢
      rw [emitted_cons r hedge, runEdges_cons r hedge, transferred_not_ready r ho]
      exact ih hn hk
    | true =>
      have hcount : readyCount (inp :: inps) = readyCount inps + 1 := List.countP_cons_of_pos ho
      rw [hcount] at hk ⊢
      have hlt : k < (frame r.rom s.tsel s.var s.dig).length := by rw [length_frame]; omega
      have hbyte := List.getElem?_eq_getElem hlt
      have hpres := (presented_afterBytes r (s := s) (by omega)).trans hbyte
      have hedge := edge_transfer r hr ho (s := s.afterBytes r.rom k) hb hpres
      rw [transferByte_afterBytes r (by omega) hbyte] at hedge
      obtain ⟨hemit, hrun⟩ := ih hn (k := k + 1) (by omega)
      rw [emitted_cons r hedge, runEdges_cons r hedge, transferred_ready r hr ho (s := s.afterBytes r.rom k) hb, hpres,
        hemit, hrun,
        List.drop_eq_getElem_cons hlt, List.take_succ_cons, Nat.add_right_comm, Nat.add_assoc]
      exact ⟨rfl, rfl⟩

end

/-- Settles O35: a legal FP.SEND starts a frame with no byte sent, and each ready edge sends the next one. -/
theorem partOfAFrameIsItsPrefix : Obligations.PartOfAFrameIsItsPrefix := by
  unfold Obligations.PartOfAFrameIsItsPrefix
  intro rom s s0 v tid inps hl hx hn hk
  have hs0 : s0 = s.startFrame v tid := Host.Outcome.next.inj (hx.symm.trans (execFpSend_legal hl s))
  subst hs0
  have h := runEdges_afterBytes rom (s := s.startFrame v tid) (k := 0) rfl hn (by rwa [Nat.zero_add])
  rwa [afterBytes_zero_startFrame, List.drop_zero, Nat.zero_add] at h

/-! ### The invariant (10_state.md R22 to R25, R36) -/

section

variable {rom : TemplateRom} {s t : State}

/-- An idle state is good when its IDX is 0 and its digits, TSEL and VAR are legal. -/
theorem State.Good.of_idle (hb : s.busy = false) (hidx : s.idx = 0)
    (hdig : s.dig.tens.toNat ≤ 9 ∧ s.dig.ones.toNat ≤ 9 ∧ s.dig.tenths.toNat ≤ 9) (htsel : s.tsel.toNat ≤ 4)
    (hvar : s.var = true → s.tsel = 2 ∨ s.tsel = 3) : s.Good rom where
  legal :=
    { digits := hdig, tsel := htsel, variant := hvar, idle := fun _ => hidx, sending := fun h => by rw [hb] at h; cases h }
  sum h := by rw [hb] at h; cases h

/-- An idle good state stays good when only ACC, MATCH and the error flags change. -/
theorem State.Good.of_idle_frame (h : s.Good rom) (hb : s.busy = false) (hdig : t.dig = s.dig)
    (hframe : (t.tsel, t.var, t.idx, t.busy) = (s.tsel, s.var, s.idx, s.busy)) : t.Good rom := by
  simp only [Prod.mk.injEq] at hframe
  obtain ⟨htsel, hvar, hidx, hbusy⟩ := hframe
  refine .of_idle (hbusy.trans hb) (hidx.trans (h.legal.idle hb)) ?_ ?_ ?_
  · rw [hdig]; exact h.legal.digits
  · rw [htsel]; exact h.legal.tsel
  · rw [hvar, htsel]; exact h.legal.variant

/-- The input draws are no part of the invariant. -/
theorem State.Good.dropInputs (h : s.Good rom) : s.dropInputs.Good rom := by
  obtain ⟨⟨hdig, htsel, hvar, hidle, hsend⟩, hsum⟩ := h
  refine ⟨⟨?_, ?_, ?_, ?_, ?_⟩, ?_⟩
  all_goals simpa [State.SumTracksFrame]

end

/-- Settles O25: the reset state is idle, with zeros. -/
theorem resetStateIsGood : Obligations.ResetStateIsGood := by
  unfold Obligations.ResetStateIsGood
  exact fun _ => .of_idle rfl rfl (by decide) (by decide) (by decide)

section

variable (r : WellFormedRom) {s t : State}

/-- With fewer bytes sent than the frame has, the state is good. -/
theorem good_afterBytes (h : s.Legal r.rom) (hb : s.busy = true) {k : Nat} (hk : k < r.rom.len s.tsel) :
    (s.afterBytes r.rom k).Good r.rom where
  legal :=
    { digits := h.digits, tsel := h.tsel, variant := h.variant
      idle := fun hidle => by cases hb.symm.trans hidle
      sending := fun _ => by rw [afterBytes_idx_toNat r hk]; exact hk }
  sum _ := by rw [afterBytes_idx_toNat r hk]; rfl

/-- A busy good state has sent as many bytes as IDX says. -/
theorem afterBytes_idx_of_good (h : s.Good r.rom) (hb : s.busy = true) : s.afterBytes r.rom s.idx.toNat = s := by
  rw [State.afterBytes, ← h.sum hb, BitVec.ofNat_toNat, BitVec.setWidth_eq]

/-- A new frame is good: none of its bytes has been sent. -/
theorem good_startFrame (h : s.Good r.rom) {v : Bool} {tid : TemplateId} (hl : sendLegal v tid = true) :
    (s.startFrame v tid).Good r.rom := by
  obtain ⟨htid, hvar⟩ := (sendLegal_iff v tid).1 hl
  have hlen : 0 < r.rom.len tid := Nat.lt_of_lt_of_le (by decide) (r.len_bounds htid).1
  have hlegal : (s.startFrame v tid).Legal r.rom :=
    { digits := h.legal.digits, tsel := htid
      variant := fun hv => hvar.resolve_left (ne_false_of_eq_true hv)
      idle := fun _ => rfl, sending := fun _ => hlen }
  rw [← afterBytes_zero_startFrame r.rom]
  exact good_afterBytes r hlegal rfl hlen

/-- A transfer keeps the invariant: after the last byte the block is idle, before it one more byte of the frame is sent. -/
theorem good_transferByte (h : s.Good r.rom) (hb : s.busy = true) {b : Byte} (hp : s.presented r.rom = some b) :
    (s.transferByte r.rom b).Good r.rom := by
  cases hlast : s.atLast r.rom with
  | true => exact .of_idle (by simp [hlast]) (by simp [hlast]) h.legal.digits h.legal.tsel h.legal.variant
  | false =>
    have hne : s.idx.toNat + 1 ≠ r.rom.len s.tsel := beq_eq_false_iff_ne.1 hlast
    have hle := h.legal.sending hb
    have hs := afterBytes_idx_of_good r h hb
    have hpres := presented_afterBytes r (s := s) (k := s.idx.toNat) hle
    rw [hs, hp] at hpres
    have ht := transferByte_afterBytes r (by omega) hpres.symm
    rw [hs] at ht
    rw [ht]
    exact good_afterBytes r h.legal hb (by omega)

/-- An idle block keeps the invariant, whatever command it executes. -/
theorem good_exec (h : s.Good r.rom) (hb : s.busy = false) {i : Instr} (hx : exec i s = .next t) : t.Good r.rom := by
  rcases exec_cases hx with ⟨-, rfl⟩ | ⟨-, rfl⟩ | ⟨b, -, rfl⟩ | ⟨b, -, rfl⟩ | ⟨a, o, f, -, hd, rfl⟩ |
    ⟨a, o, f, -, -, rfl⟩ | ⟨v, tid, -, hl, rfl⟩ | ⟨v, tid, -, -, rfl⟩ | ⟨-, rfl⟩ | ⟨-, rfl⟩
  case inr.inr.inr.inr.inl =>
    exact .of_idle hb (h.legal.idle hb) ((Digits.legal_iff _).1 hd) h.legal.tsel h.legal.variant
  case inr.inr.inr.inr.inr.inr.inl => exact good_startFrame r h hl
  all_goals exact h.of_idle_frame hb (by simp) (by simp)

theorem good_edge {inp : Inputs} (h : s.Good r.rom) (he : edge r inp s = .next t) : t.Good r.rom := by
  rcases edge_cases r he with ⟨_, rfl⟩ | ⟨_, _, _, rfl⟩ | ⟨_, hb, _, b, hp, rfl⟩ | ⟨_, hb, _, hx⟩ | ⟨_, _, _, rfl⟩
  · exact .of_idle rfl rfl (by simp) (by simp) (by simp)
  · exact h
  · exact good_transferByte r h hb hp
  · exact good_exec r h hb hx
  · exact h

end

/-- Settles O26: the cases of an edge, and a step is the edge with the next draw. -/
theorem everyStepKeepsTheInvariant : Obligations.EveryStepKeepsTheInvariant := by
  unfold Obligations.EveryStepKeepsTheInvariant
  exact ⟨fun rom _ _ _ h he => good_edge rom h he, fun _ _ h hs => good_edge Config.templateRom h.dropInputs hs⟩

end Sys2Proof.Machine
end

section
/-! PROOFS. 20_memory.md: the one address an edge cannot read, and the ROM checks on which a block is run or refused. -/

namespace Sys2Proof.Machine

/-! ### The populated addresses (20_memory.md R50) -/

/-- No byte is presented exactly at an address outside the template map (20_memory.md R50). -/
theorem presented_eq_none_iff (rom : TemplateRom) (s : State) :
    s.presented rom = none ↔ ¬(s.tsel.toNat ≤ 4 ∧ s.idx.toNat < rom.len s.tsel) := by
  have hpop : s.tsel.toNat ≤ 4 ∧ s.idx.toNat < rom.len s.tsel ↔ s.idx.toNat < rom.len s.tsel :=
    and_iff_right_of_imp TemplateRom.id_le_of_populated
  rw [hpop, ← byteAt_isSome_iff rom s.tsel s.var s.dig s.acc s.idx, Option.not_isSome_iff_eq_none]
  rfl

theorem edge_ne_refused (r : WellFormedRom) (inp : Inputs) (s : State) (why : Refusal) :
    edge r inp s ≠ .refused why := by
  rcases edge_next_or_unpopulated r inp s with ⟨t, ht⟩ | ⟨hr, ho, hb, hp⟩
  · simp [ht]
  · simp [edge_unpopulated r hr ho hb hp]

/-- Settles O28: an edge answers a next state unless it would transfer where no byte is presented, and there it faults. -/
theorem onlyAnUnpopulatedReadFaults : Obligations.OnlyAnUnpopulatedReadFaults := by
  unfold Obligations.OnlyAnUnpopulatedReadFaults
  intro rom inp s
  refine ⟨⟨fun hfault => ?_, fun ⟨hr, hb, ho, hu⟩ => ?_⟩, edge_ne_refused rom inp s⟩
  · rcases edge_next_or_unpopulated rom inp s with ⟨t, ht⟩ | ⟨hr, ho, hb, hp⟩
    · cases ht.symm.trans hfault
    · exact ⟨hr, hb, ho, (presented_eq_none_iff rom.rom s).1 hp⟩
  · exact edge_unpopulated rom hr ho hb ((presented_eq_none_iff rom.rom s).2 hu)

/-! ### The ROM checks (20_memory.md R52) -/

/-- A busy legal block presents a byte, so no edge from a legal state stops (10_state.md R25). -/
theorem edge_next_of_legal (r : WellFormedRom) {s : State} (h : s.Legal r.rom) (inp : Inputs) :
    ∃ t, edge r inp s = .next t := by
  rcases edge_next_or_unpopulated r inp s with hnext | ⟨_, _, hb, hp⟩
  · exact hnext
  · exact absurd ⟨h.tsel, h.sending hb⟩ ((presented_eq_none_iff r.rom s).1 hp)

theorem edgeWithRom_of_wf {rom : TemplateRom} (h : rom.wf = true) (inp : Inputs) (s : State) :
    edgeWithRom rom inp s = edge ⟨rom, h⟩ inp s := by
  rw [edgeWithRom, TemplateRom.toWellFormed_of_wf h]

theorem edgeWithRom_of_not_wf {rom : TemplateRom} (h : rom.wf = false) (inp : Inputs) (s : State) :
    edgeWithRom rom inp s = .refused .illFormedRom := by
  rw [edgeWithRom, TemplateRom.toWellFormed_of_not_wf h]

/-- One failed check fails the ROM. -/
theorem TemplateRom.wf_eq_false_of_failed_check {rom : TemplateRom}
    (h : rom.w1 = false ∨ rom.w2 = false ∨ rom.w3 = false ∨ rom.w4 = false ∨ rom.w5 = false ∨ rom.w6 = false ∨
      rom.w7 = false) : rom.wf = false := by
  simpa only [wf, Bool.and_eq_false_iff, or_assoc] using h

/-- Settles O29: a block is built of a ROM exactly when every check passes, and from a legal state its edges do not stop. -/
theorem illFormedRomIsRefused : Obligations.IllFormedRomIsRefused := by
  unfold Obligations.IllFormedRomIsRefused
  intro rom inp s
  refine ⟨fun hfailed => ?_, fun hpassed hlegal => ?_⟩
  · exact edgeWithRom_of_not_wf (TemplateRom.wf_eq_false_of_failed_check hfailed) inp s
  · have hwf := TemplateRom.wf_of_checks hpassed
    rw [edgeWithRom_of_wf hwf]
    exact edge_next_of_legal ⟨rom, hwf⟩ hlegal inp

end Sys2Proof.Machine
end

section
/-! PROOFS. 30_encoding.md sections 1 to 3: decoding and encoding undo each other, the illegal words, and the opcode map. -/

namespace Sys2Proof

/-! ### The illegal words (30_encoding.md R77) -/

/-- The illegal words in numbers, in the order R77 lists them. -/
theorem Word.isIllegal_iff (w : Word) : Word.isIllegal w = true ↔
    7 ≤ w.toNat / 4096 ∨
    ((w.toNat / 4096 = 0 ∨ w.toNat / 4096 = 1 ∨ w.toNat / 4096 = 6) ∧ w.toNat % 4096 ≠ 0) ∨
    ((w.toNat / 4096 = 2 ∨ w.toNat / 4096 = 3) ∧ w.toNat / 256 % 16 ≠ 0) ∨
    (w.toNat / 4096 = 5 ∧ w.toNat / 16 % 256 ≠ 0) := by
  rw [Word.isIllegal, Bool.or_eq_true, decide_eq_true_eq, Word.op]
  refine or_congr_right ?_
  unfold Word.reservedBitSet Word.op
  split
  all_goals
    simp only [bne_iff_ne, Bool.false_eq_true, imp_false, false_iff] at *
    omega

/-- An illegal word of OP 0x0..0x7 decodes to the ILLEGAL of row 0x7000. -/
theorem decode_of_isIllegal {w : Word} (hill : Word.isIllegal w = true) (hop : Word.op w ≤ 7) :
    decode w = .illegal w := by
  rw [Word.isIllegal_iff] at hill
  rw [Word.op] at hop
  rw [decode_numeric]
  split
  case h_5 => omega
  case h_8 => rfl
  case h_9 =>
    simp only [imp_false] at *
    omega
  all_goals exact if_neg (by omega)

/-- A word of OP 0x8..0xF decodes to the ILLEGAL of row 0x8000. -/
theorem decode_of_high_op {w : Word} (hop : 8 ≤ Word.op w) : decode w = .illegalHigh w := by
  rw [Word.op] at hop
  rw [decode_numeric]
  split
  case h_9 => rfl
  all_goals omega

/-! ### Decoding an encoded command (30_encoding.md R71 to R76) -/

theorem decode_encode_csumAdd (b : Byte) : decode (encode (.csumAdd b)) = .csumAdd b := by
  have hb := b.isLt
  have hop : (0x2000 + b.toNat) / 4096 = 2 := by omega
  have hres : (0x2000 + b.toNat) / 256 % 16 = 0 := by omega
  rw [decode_numeric, encode_csumAdd_toNat, hop]
  refine (if_pos hres).trans (congrArg Instr.csumAdd (BitVec.eq_of_toNat_eq ?_))
  rw [BitVec.toNat_ofNat]
  omega

theorem decode_encode_csumChk (b : Byte) : decode (encode (.csumChk b)) = .csumChk b := by
  have hb := b.isLt
  have hop : (0x3000 + b.toNat) / 4096 = 3 := by omega
  have hres : (0x3000 + b.toNat) / 256 % 16 = 0 := by omega
  rw [decode_numeric, encode_csumChk_toNat, hop]
  refine (if_pos hres).trans (congrArg Instr.csumChk (BitVec.eq_of_toNat_eq ?_))
  rw [BitVec.toNat_ofNat]
  omega

theorem decode_encode_fpLdd (t o f : Digit) : decode (encode (.fpLdd t o f)) = .fpLdd t o f := by
  have ht := t.isLt
  have ho := o.isLt
  have hf := f.isLt
  have hop : (0x4000 + t.toNat * 256 + o.toNat * 16 + f.toNat) / 4096 = 4 := by omega
  rw [decode_numeric, encode_fpLdd_toNat, hop]
  refine (Instr.fpLdd.injEq ..).mpr ⟨?_, ?_, ?_⟩
  all_goals
    apply BitVec.eq_of_toNat_eq
    rw [BitVec.toNat_ofNat]
    omega

theorem decode_encode_fpSend (v : Bool) (tid : TemplateId) : decode (encode (.fpSend v tid)) = .fpSend v tid := by
  revert v tid; decide

/-- Decoding the word of a well-formed command gives the command back. -/
theorem decode_encode {i : Instr} (h : i.WellFormed) : decode (encode i) = i := by
  cases i with
  | nop => decide
  | csumClr => decide
  | csumAdd b => exact decode_encode_csumAdd b
  | csumChk b => exact decode_encode_csumChk b
  | fpLdd t o f => exact decode_encode_fpLdd t o f
  | fpSend v tid => exact decode_encode_fpSend v tid
  | statClr => decide
  | illegal w =>
    obtain ⟨hill, hop⟩ := Bool.and_eq_true_iff.1 h
    exact decode_of_isIllegal hill (of_decide_eq_true hop)
  | illegalHigh w => exact decode_of_high_op (of_decide_eq_true h)

/-- Settles O5: constructor by constructor, the fields read out of the number of the word are the operands. -/
theorem decodeOfEncodeIsTheCommand : Obligations.DecodeOfEncodeIsTheCommand := by
  unfold Obligations.DecodeOfEncodeIsTheCommand
  exact fun _ => decode_encode

/-! ### Every word is the word of a command (30_encoding.md R76) -/

theorem encode_nop_eq {w : Word} (h : w.toNat = 0x0000) : encode .nop = w := BitVec.eq_of_toNat_eq h.symm

theorem encode_csumClr_eq {w : Word} (h : w.toNat = 0x1000) : encode .csumClr = w := BitVec.eq_of_toNat_eq h.symm

theorem encode_statClr_eq {w : Word} (h : w.toNat = 0x6000) : encode .statClr = w := BitVec.eq_of_toNat_eq h.symm

theorem encode_csumAdd_field {w : Word} (h : w.toNat / 256 = 0x20) : encode (.csumAdd (field w 0 8)) = w := by
  apply BitVec.eq_of_toNat_eq
  rw [encode_csumAdd_toNat, field_toNat]
  omega

theorem encode_csumChk_field {w : Word} (h : w.toNat / 256 = 0x30) : encode (.csumChk (field w 0 8)) = w := by
  apply BitVec.eq_of_toNat_eq
  rw [encode_csumChk_toNat, field_toNat]
  omega

theorem encode_fpLdd_field {w : Word} (h : w.toNat / 4096 = 4) :
    encode (.fpLdd (field w 8 4) (field w 4 4) (field w 0 4)) = w := by
  apply BitVec.eq_of_toNat_eq
  simp only [encode_fpLdd_toNat, field_toNat]
  omega

theorem encode_fpSend_field {w : Word} (h : w.toNat / 16 = 0x500) :
    encode (.fpSend (w.getLsbD 3) (field w 0 3)) = w := by
  have hv : (w.getLsbD 3).toNat = w.toNat / 2 ^ 3 % 2 := Nat.toNat_testBit w.toNat 3
  apply BitVec.eq_of_toNat_eq
  rw [encode_fpSend_toNat, field_toNat, hv]
  omega

/-- A word that is not illegal is the word of the command its OP names, with its operand fields. -/
theorem exists_encode_of_not_isIllegal {w : Word} (h : Word.isIllegal w = false) :
    ∃ i : Instr, i.WellFormed ∧ encode i = w := by
  rw [← Bool.not_eq_true, Word.isIllegal_iff] at h
  have hop : w.toNat / 4096 = 0 ∨ w.toNat / 4096 = 1 ∨ w.toNat / 4096 = 2 ∨ w.toNat / 4096 = 3 ∨
    w.toNat / 4096 = 4 ∨ w.toNat / 4096 = 5 ∨ w.toNat / 4096 = 6 := by omega
  rcases hop with hop | hop | hop | hop | hop | hop | hop
  · exact ⟨_, rfl, encode_nop_eq (by omega)⟩
  · exact ⟨_, rfl, encode_csumClr_eq (by omega)⟩
  · exact ⟨_, rfl, encode_csumAdd_field (by omega)⟩
  · exact ⟨_, rfl, encode_csumChk_field (by omega)⟩
  · exact ⟨_, rfl, encode_fpLdd_field hop⟩
  · exact ⟨_, rfl, encode_fpSend_field (by omega)⟩
  · exact ⟨_, rfl, encode_statClr_eq (by omega)⟩

/-- Every word is the word of a well-formed command. -/
theorem exists_encode_eq (w : Word) : ∃ i : Instr, i.WellFormed ∧ encode i = w := by
  by_cases hhigh : 8 ≤ Word.op w
  · exact ⟨.illegalHigh w, decide_eq_true hhigh, rfl⟩
  cases hill : Word.isIllegal w with
  | true => exact ⟨.illegal w, Bool.and_eq_true_iff.2 ⟨hill, decide_eq_true (by omega)⟩, rfl⟩
  | false => exact exists_encode_of_not_isIllegal hill

theorem wellFormed_decode (w : Word) : (decode w).WellFormed := by
  obtain ⟨i, hwf, rfl⟩ := exists_encode_eq w
  rwa [decode_encode hwf]

/-- No bit of a word is dropped. -/
@[simp] theorem encode_decode (w : Word) : encode (decode w) = w := by
  obtain ⟨i, hwf, rfl⟩ := exists_encode_eq w
  rw [decode_encode hwf]

/-- Settles O6: the word is that of some well-formed command, and that command is what it decodes to. -/
theorem encodeOfDecodeIsTheWord : Obligations.EncodeOfDecodeIsTheWord := by
  unfold Obligations.EncodeOfDecodeIsTheWord
  exact fun w => ⟨wellFormed_decode w, encode_decode w⟩

end Sys2Proof
end

section
/-! PROOFS. 30_encoding.md section 2 (R75): the rows of the opcode map against the decoder, and words written out in bits. -/

namespace Sys2Proof

/-! ### The words that decode to ILLEGAL (30_encoding.md R77) -/

theorem mnemonic_decode_of_isIllegal {w : Word} (h : Word.isIllegal w = true) : (decode w).mnemonic = "ILLEGAL" := by
  by_cases hop : Word.op w ≤ 7
  · rw [decode_of_isIllegal h hop]
    rfl
  · rw [decode_of_high_op (by omega)]
    rfl

theorem isIllegal_encode_of_mnemonic {i : Instr} (hwf : i.WellFormed) (hm : i.mnemonic = "ILLEGAL") :
    Word.isIllegal (encode i) = true := by
  cases i with
  | illegal w => exact (Bool.and_eq_true_iff.1 hwf).1
  | illegalHigh w =>
    have hop : 8 ≤ Word.op w := of_decide_eq_true hwf
    exact Bool.or_eq_true_iff.2 (.inl (decide_eq_true (Nat.le_of_succ_le hop)))
  | nop | csumClr | csumAdd _ | csumChk _ | fpLdd _ _ _ | fpSend _ _ | statClr => simp [Instr.mnemonic] at hm

/-- A word decodes to ILLEGAL exactly when it is one of the illegal encodings. -/
theorem mnemonic_decode_eq_illegal_iff (w : Word) : (decode w).mnemonic = "ILLEGAL" ↔ Word.isIllegal w = true := by
  refine ⟨fun hm => ?_, mnemonic_decode_of_isIllegal⟩
  obtain ⟨i, hwf, rfl⟩ := exists_encode_eq w
  rw [decode_encode hwf] at hm
  exact isIllegal_encode_of_mnemonic hwf hm

/-! ### What a row of the opcode map covers (30_encoding.md R75) -/

namespace OpcodeRow

/-- Rows that ask different values of a bit both masks hold cover no word in common. -/
theorem not_covers_both {r r' : OpcodeRow} (h : r.pattern &&& r'.mask ≠ r'.pattern &&& r.mask) (w : Word) :
    ¬(r.covers w = true ∧ r'.covers w = true) := by
  rintro ⟨hr, hr'⟩
  rw [covers, beq_iff_eq] at hr hr'
  apply h
  rw [← hr, ← hr', BitVec.and_assoc, BitVec.and_assoc, BitVec.and_comm r.mask]

/-- A row whose mask is the bits from `k` up covers the words whose number without the low `k` bits is the pattern's. -/
theorem covers_iff_of_high_bits {r : OpcodeRow} (k n : Nat) (hm : r.mask = BitVec.allOnes 16 <<< k)
    (hp : r.pattern.toNat = n * 2 ^ k) (w : Word) : r.covers w = true ↔ w.toNat / 2 ^ k = n := by
  have hlt : w.toNat / 2 ^ k * 2 ^ k < 2 ^ 16 := Nat.lt_of_le_of_lt (Nat.div_mul_le_self _ _) w.isLt
  rw [covers, beq_iff_eq, hm, ← BitVec.shiftLeft_ushiftRight, ← BitVec.toNat_inj, BitVec.toNat_shiftLeft,
    BitVec.toNat_ushiftRight, Nat.shiftRight_eq_div_pow, Nat.shiftLeft_eq, Nat.mod_eq_of_lt hlt, hp]
  exact Nat.mul_left_inj (Nat.two_pow_pos k).ne'

end OpcodeRow

/-- No two rows of the opcode map cover one word. -/
theorem opcodeMap_disjoint :
    opcodeMap.Pairwise fun r r' => ∀ w : Word, ¬(r.covers w = true ∧ r'.covers w = true) := by
  have hbits : opcodeMap.Pairwise fun r r' => r.pattern &&& r'.mask ≠ r'.pattern &&& r.mask := by decide
  exact hbits.imp OpcodeRow.not_covers_both

/-- A covered word decodes to its row's command: the row fixes its bits outside the operand fields, so it is that command's
word. -/
theorem mnemonic_decode_of_covers {r : OpcodeRow} (hr : r ∈ opcodeMap) {w : Word} (hc : r.covers w = true) :
    (decode w).mnemonic = r.mnemonic := by
  simp only [opcodeMap, List.mem_cons, List.not_mem_nil, or_false] at hr
  rcases hr with rfl | rfl | rfl | rfl | rfl | rfl | rfl | rfl | rfl
  · have hw := (OpcodeRow.covers_iff_of_high_bits 0 0x0000 rfl rfl w).1 hc
    rw [← encode_nop_eq (w := w) (by omega), decode_encode rfl]; rfl
  · have hw := (OpcodeRow.covers_iff_of_high_bits 0 0x1000 rfl rfl w).1 hc
    rw [← encode_csumClr_eq (w := w) (by omega), decode_encode rfl]; rfl
  · have hw := (OpcodeRow.covers_iff_of_high_bits 8 0x20 rfl rfl w).1 hc
    rw [← encode_csumAdd_field hw, decode_encode rfl]; rfl
  · have hw := (OpcodeRow.covers_iff_of_high_bits 8 0x30 rfl rfl w).1 hc
    rw [← encode_csumChk_field hw, decode_encode rfl]; rfl
  · have hw := (OpcodeRow.covers_iff_of_high_bits 12 4 rfl rfl w).1 hc
    rw [← encode_fpLdd_field hw, decode_encode rfl]; rfl
  · have hw := (OpcodeRow.covers_iff_of_high_bits 4 0x500 rfl rfl w).1 hc
    rw [← encode_fpSend_field hw, decode_encode rfl]; rfl
  · have hw := (OpcodeRow.covers_iff_of_high_bits 0 0x6000 rfl rfl w).1 hc
    rw [← encode_statClr_eq (w := w) (by omega), decode_encode rfl]; rfl
  · have hw := (OpcodeRow.covers_iff_of_high_bits 12 7 rfl rfl w).1 hc
    exact mnemonic_decode_of_isIllegal (w.isIllegal_iff.2 (.inl (Nat.le_of_eq hw.symm)))
  · have hw := (OpcodeRow.covers_iff_of_high_bits 15 1 rfl rfl w).1 hc
    exact mnemonic_decode_of_isIllegal (w.isIllegal_iff.2 (.inl (by omega)))

/-- Every command but ILLEGAL has a row of the opcode map that covers its word, whatever its operands. -/
theorem exists_covers_encode {i : Instr} (hm : i.mnemonic ≠ "ILLEGAL") :
    ∃ r ∈ opcodeMap, r.covers (encode i) = true := by
  cases i with
  | nop => exact ⟨⟨"NOP", 0x0000, 0xFFFF⟩, by decide, by decide⟩
  | csumClr => exact ⟨⟨"CSUM.CLR", 0x1000, 0xFFFF⟩, by decide, by decide⟩
  | csumAdd b =>
    refine ⟨⟨"CSUM.ADD", 0x2000, 0xFF00⟩, by decide, (OpcodeRow.covers_iff_of_high_bits 8 0x20 rfl rfl _).2 ?_⟩
    rw [encode_csumAdd_toNat]
    omega
  | csumChk b =>
    refine ⟨⟨"CSUM.CHK", 0x3000, 0xFF00⟩, by decide, (OpcodeRow.covers_iff_of_high_bits 8 0x30 rfl rfl _).2 ?_⟩
    rw [encode_csumChk_toNat]
    omega
  | fpLdd t o f =>
    refine ⟨⟨"FP.LDD", 0x4000, 0xF000⟩, by decide, (OpcodeRow.covers_iff_of_high_bits 12 4 rfl rfl _).2 ?_⟩
    rw [encode_fpLdd_toNat]
    omega
  | fpSend v tid =>
    refine ⟨⟨"FP.SEND", 0x5000, 0xFFF0⟩, by decide, ?_⟩
    revert v tid; decide
  | statClr => exact ⟨⟨"STAT.CLR", 0x6000, 0xFFFF⟩, by decide, by decide⟩
  | illegal w => exact absurd rfl hm
  | illegalHigh w => exact absurd rfl hm

theorem mnemonic_decode_of_not_covered {w : Word} (h : ∀ r ∈ opcodeMap, r.covers w = false) :
    (decode w).mnemonic = "ILLEGAL" := by
  obtain ⟨i, hwf, rfl⟩ := exists_encode_eq w
  rw [decode_encode hwf]
  by_contra hm
  obtain ⟨r, hr, hc⟩ := exists_covers_encode hm
  exact Bool.false_ne_true ((h r hr).symm.trans hc)

/-- Settles O7: the rows are disjoint by their patterns and masks, a row that covers a word fixes its OP and reserved bits, and
a word no row covers is none of the seven commands' words. -/
theorem opcodeMapDecidesEveryWord : Obligations.OpcodeMapDecidesEveryWord := by
  unfold Obligations.OpcodeMapDecidesEveryWord
  exact ⟨opcodeMap_disjoint, fun _ _ hr hc => mnemonic_decode_of_covers hr hc, fun _ => mnemonic_decode_of_not_covered,
    fun w => (mnemonic_decode_eq_illegal_iff w).trans w.isIllegal_iff⟩

/-- Settles O8, by evaluating the decoder. -/
theorem writtenOutWordsDecode : Obligations.WrittenOutWordsDecode := by
  unfold Obligations.WrittenOutWordsDecode
  decide

end Sys2Proof
end

section
/-! PROOFS. 30_encoding.md section 5 (R80): what a command line assembles to, and the lines that are refused. -/

namespace Sys2Proof.Machine

/-- A range check answers its value exactly when it passes. -/
theorem rangeCheck_eq_ok_iff {p : Prop} [Decidable p] {i j : Instr} :
    (if p then .ok i else .error .outOfRange : Except AsmError Instr) = .ok j ↔ p ∧ i = j := by
  split <;> simp [*]

/-- A range check refuses exactly when it fails. -/
theorem rangeCheck_eq_error_iff {p : Prop} [Decidable p] {i : Instr} :
    (if p then .ok i else .error .outOfRange : Except AsmError Instr) = .error .outOfRange ↔ ¬p := by
  split <;> simp [*]

/-- A line names a well-formed command. -/
theorem wellFormed_of_commandInstr {c : AsmCommand} {i : Instr} (h : commandInstr c = .ok i) : i.WellFormed := by
  cases c with
  | nop | csumClr | statClr => cases h; rfl
  | csumAdd n | csumChk n | fpLdd t o f | fpSend t v =>
    obtain ⟨-, rfl⟩ := rangeCheck_eq_ok_iff.1 h
    rfl
  | word n =>
    obtain ⟨-, rfl⟩ := rangeCheck_eq_ok_iff.1 h
    exact wellFormed_decode _

/-- The word a line assembles to decodes to the command the line names. -/
theorem commandInstr_of_assembleCommand {c : AsmCommand} {w : Word} (h : assembleCommand c = .ok w) :
    commandInstr c = .ok (decode w) := by
  rw [assembleCommand] at h
  cases hc : commandInstr c with
  | error e => rw [hc] at h; cases h
  | ok i =>
    rw [hc] at h
    cases h
    rw [decode_encode (wellFormed_of_commandInstr hc)]

theorem assembleCommand_eq_error_iff {c : AsmCommand} {e : AsmError} :
    assembleCommand c = .error e ↔ commandInstr c = .error e := by
  rw [assembleCommand]
  cases commandInstr c <;> simp

/-- Settles O44: the word decodes to the command the line names, whose operands are the numbers written because each passed its
field's range check; a line is refused when a check fails. -/
theorem assemblerRefusesOutOfRange : Obligations.AssemblerRefusesOutOfRange := by
  unfold Obligations.AssemblerRefusesOutOfRange
  intro c
  refine ⟨fun w hw => ?_, ?_⟩
  · have h := commandInstr_of_assembleCommand hw
    refine ⟨⟨_, h, rfl⟩, ?_⟩
    cases c with
    | nop | csumClr | statClr => exact (Except.ok.inj h).symm
    | csumAdd n | csumChk n =>
      obtain ⟨hn, hi⟩ := rangeCheck_eq_ok_iff.1 h
      exact ⟨_, hi.symm, Nat.mod_eq_of_lt (Nat.lt_succ_of_le hn)⟩
    | fpLdd t o f =>
      obtain ⟨⟨ht, ho, hf⟩, hi⟩ := rangeCheck_eq_ok_iff.1 h
      exact ⟨_, _, _, hi.symm, Nat.mod_eq_of_lt (Nat.lt_succ_of_le ht),
        Nat.mod_eq_of_lt (Nat.lt_succ_of_le ho), Nat.mod_eq_of_lt (Nat.lt_succ_of_le hf)⟩
    | fpSend t v =>
      obtain ⟨⟨ht, hv⟩, hi⟩ := rangeCheck_eq_ok_iff.1 h
      refine ⟨_, _, hi.symm, ?_, Nat.mod_eq_of_lt (Nat.lt_succ_of_le ht)⟩
      interval_cases v <;> rfl
    | word n =>
      obtain ⟨hn, hi⟩ := rangeCheck_eq_ok_iff.1 h
      have hword : BitVec.ofNat 16 n = w := by rw [← encode_decode w, ← hi, encode_decode]
      rw [← hword]
      exact Nat.mod_eq_of_lt (Nat.lt_succ_of_le hn)
  · rw [assembleCommand_eq_error_iff]
    cases c with
    | nop | csumClr | statClr => simp [commandInstr]
    | csumAdd n | csumChk n => exact rangeCheck_eq_error_iff.trans Nat.not_le
    | fpLdd t o f => exact rangeCheck_eq_error_iff.trans (by omega)
    | fpSend t v => exact rangeCheck_eq_error_iff.trans (by omega)
    | word n => exact rangeCheck_eq_error_iff.trans Nat.not_le

end Sys2Proof.Machine
end

section
/-! PROOFS. 30_encoding.md section 6 (R82, R83): the frame index by index. -/

namespace Sys2Proof.Machine

/-! ### Patches (30_encoding.md R83) -/

theorem patchAll_getElem?_of_notMem {ps : List (Nat × Byte)} {j : Nat} (hj : j ∉ ps.map Prod.fst) (bs : List Byte) :
    (patchAll ps bs)[j]? = bs[j]? := by
  induction ps generalizing bs with
  | nil => rfl
  | cons p ps ih =>
    rw [List.map_cons, List.mem_cons, not_or] at hj
    obtain ⟨hne, hj⟩ := hj
    rw [patchAll, ih hj, List.getElem?_set_ne (Ne.symm hne)]

/-- Patches at distinct indices do not overwrite each other. -/
theorem patchAll_getElem?_of_mem {ps : List (Nat × Byte)} (hdistinct : (ps.map Prod.fst).Nodup) {j : Nat} {b : Byte}
    (hmem : (j, b) ∈ ps) {bs : List Byte} (hj : j < bs.length) : (patchAll ps bs)[j]? = some b := by
  induction ps generalizing bs with
  | nil => cases hmem
  | cons p ps ih =>
    obtain ⟨hp, hdistinct⟩ := List.nodup_cons.1 hdistinct
    rw [patchAll]
    rcases List.mem_cons.1 hmem with rfl | hmem
    · rw [patchAll_getElem?_of_notMem hp, List.getElem?_set_self hj]
    · exact ih hdistinct hmem (by rwa [List.length_set])

/-- What a draw frame writes over its template before CSO: the opcode and the digits. -/
def drawPatches (rom : TemplateRom) (t : TemplateId) (v : Bool) (d : Digits) : List (Nat × Byte) :=
  (opcOff, rom.opcode t v) :: (digitPositions rom t).zip (digitBytes t d)

theorem patchedTemplate_of_isDraw (rom : TemplateRom) {t : TemplateId} (h : isDraw t = true) (v : Bool) (d : Digits) :
    patchedTemplate rom t v d = patchAll (drawPatches rom t v d) (rom.bytes t) := if_pos h

theorem drawPatches_drawTemp (rom : TemplateRom) (v : Bool) (d : Digits) : drawPatches rom 2 v d =
    [(4, rom.opcode 2 v), (rom.numOff 2, asciiTens d.tens), (rom.numOff 2 + 1, asciiDigit d.ones),
      (rom.numOff 2 + 3, asciiDigit d.tenths)] := rfl

theorem drawPatches_drawHum (rom : TemplateRom) (v : Bool) (d : Digits) : drawPatches rom 3 v d =
    [(4, rom.opcode 3 v), (rom.numOff 3, asciiTens d.tens), (rom.numOff 3 + 1, asciiDigit d.ones)] := rfl

theorem isDraw_iff (t : TemplateId) : isDraw t = true ↔ t = 2 ∨ t = 3 := by
  rw [isDraw, Bool.or_eq_true, beq_iff_eq, beq_iff_eq]

section

variable (r : WellFormedRom) {t : TemplateId} (v : Bool) (d : Digits)

/-- W5: the patched indices are distinct and lie before CSO (20_memory.md R56). -/
theorem drawPatches_indices (ht : t = 2 ∨ t = 3) : ((drawPatches r.rom t v d).map Prod.fst).Nodup ∧
    ∀ p ∈ drawPatches r.rom t v d, p.1 < r.rom.cso t := by
  rcases ht with rfl | rfl
  · have hfield := r.numOff_drawTemp
    rw [drawPatches_drawTemp]
    generalize r.rom.numOff 2 = n, r.rom.cso 2 = cso at hfield
    simp only [List.map_cons, List.map_nil, List.nodup_cons, List.nodup_nil, List.mem_cons, List.not_mem_nil, or_false,
      not_false_eq_true, and_true, forall_eq_or_imp, forall_eq]
    omega
  · have hfield := r.numOff_drawHum
    rw [drawPatches_drawHum]
    generalize r.rom.numOff 3 = n, r.rom.cso 3 = cso at hfield
    simp only [List.map_cons, List.map_nil, List.nodup_cons, List.nodup_nil, List.mem_cons, List.not_mem_nil, or_false,
      not_false_eq_true, and_true, forall_eq_or_imp, forall_eq]
    omega

/-- The patches common to both draw templates. -/
theorem mem_drawPatches (ht : t = 2 ∨ t = 3) :
    (4, r.rom.opcode t v) ∈ drawPatches r.rom t v d ∧ (r.rom.numOff t, asciiTens d.tens) ∈ drawPatches r.rom t v d ∧
      (r.rom.numOff t + 1, asciiDigit d.ones) ∈ drawPatches r.rom t v d := by
  rcases ht with rfl | rfl
  all_goals exact ⟨.head _, .tail _ (.head _), .tail _ (.tail _ (.head _))⟩

/-- The frame holds the opcode and the digits where they are patched in. -/
theorem frame_getElem?_of_mem_drawPatches (ht : t = 2 ∨ t = 3) {j : Nat} {b : Byte}
    (hmem : (j, b) ∈ drawPatches r.rom t v d) : (frame r.rom t v d)[j]? = some b := by
  obtain ⟨hdistinct, hbefore⟩ := drawPatches_indices r v d ht
  have hj : j < r.rom.cso t := hbefore _ hmem
  rw [frame_getElem? _ _ _ _ (Nat.ne_of_lt hj), patchedTemplate_of_isDraw _ ((isDraw_iff t).2 ht)]
  exact patchAll_getElem?_of_mem hdistinct hmem (Nat.lt_of_lt_of_le hj (Nat.sub_le _ _))

/-- Away from CSO, the opcode and the digits, the frame holds the template's bytes. -/
theorem frame_getElem?_of_template {j : Nat} (hcso : j ≠ r.rom.cso t)
    (hdraw : t = 2 ∨ t = 3 → j ≠ 4 ∧ j ≠ r.rom.numOff t ∧ j ≠ r.rom.numOff t + 1)
    (htenths : t = 2 → j ≠ r.rom.numOff t + 3) : (frame r.rom t v d)[j]? = (r.rom.bytes t)[j]? := by
  rw [frame_getElem? _ _ _ _ hcso]
  cases hd : isDraw t with
  | false => rw [patchedTemplate_fixed _ hd]
  | true =>
    rw [patchedTemplate_of_isDraw _ hd]
    apply patchAll_getElem?_of_notMem
    obtain ⟨h4, htens, hones⟩ := hdraw ((isDraw_iff t).1 hd)
    rcases (isDraw_iff t).1 hd with rfl | rfl
    · rw [drawPatches_drawTemp]
      simpa using ⟨h4, htens, hones, htenths rfl⟩
    · rw [drawPatches_drawHum]
      simpa using ⟨h4, htens, hones⟩

/-- At CSO the frame holds the checksum of its own bytes before. -/
theorem frame_getElem?_cso (ht : t.toNat ≤ 4) :
    (frame r.rom t v d)[r.rom.cso t]? = some (csum (frame r.rom t v d) (r.rom.cso t)) := by
  rw [frame_cso r ht, csum_frame_of_le _ _ _ _ (Nat.le_refl _)]
  rfl

/-- W5: the numeric field lies between the opcode and CSO (20_memory.md R56). -/
theorem numOff_bounds (ht : t = 2 ∨ t = 3) : 5 ≤ r.rom.numOff t ∧ r.rom.numOff t + 1 < r.rom.cso t := by
  rcases ht with rfl | rfl
  · have := r.numOff_drawTemp
    omega
  · exact r.numOff_drawHum

/-- Before the opcode and after CSO the frame holds the template's bytes. -/
theorem frame_getElem?_outside (ht : t.toNat ≤ 4) {j : Nat} (hj : j < 4 ∨ r.rom.cso t < j) :
    (frame r.rom t v d)[j]? = (r.rom.bytes t)[j]? := by
  have hlen := (r.len_bounds ht).1
  have hcso : r.rom.cso t = r.rom.len t - 2 := rfl
  apply frame_getElem?_of_template
  · omega
  · intro h
    have hfield := numOff_bounds r h
    omega
  · rintro rfl
    have hfield := r.numOff_drawTemp
    omega

end

/-- Settles O32: the frame is its template but for the checksum, the opcode and the digits, and by W5 the indices named are
distinct. -/
theorem frameHasTheLayout : Obligations.FrameHasTheLayout := by
  unfold Obligations.FrameHasTheLayout
  intro rom t v d ht
  have hlen := (rom.len_bounds ht).1
  have hcso : rom.rom.cso t = rom.rom.len t - 2 := rfl
  refine ⟨length_frame _ _ _ _, ?stx, frame_getElem?_cso rom v d ht, ?cr, ?draw, ?drawTemp,
    fun j => frame_getElem?_of_template rom v d⟩
  case stx => exact (frame_getElem?_outside rom v d ht (.inl (by decide))).trans (rom.first_byte ht)
  case cr => exact (frame_getElem?_outside rom v d ht (.inr (by omega))).trans (rom.last_byte ht)
  case draw =>
    intro h
    obtain ⟨hopcode, htens, hones⟩ := mem_drawPatches rom v d h
    exact ⟨frame_getElem?_of_mem_drawPatches rom v d h hopcode, frame_getElem?_of_mem_drawPatches rom v d h htens,
      frame_getElem?_of_mem_drawPatches rom v d h hones⟩
  case drawTemp =>
    rintro rfl
    have hfield := rom.numOff_drawTemp
    have htenths : (rom.rom.numOff 2 + 3, asciiDigit d.tenths) ∈ drawPatches rom.rom 2 v d :=
      .tail _ (.tail _ (.tail _ (.head _)))
    refine ⟨?_, frame_getElem?_of_mem_drawPatches rom v d (.inl rfl) htenths⟩
    rw [frame_getElem?_of_template rom v d (by omega) (fun _ => by omega) (fun _ => by omega)]
    exact rom.decimal_point

end Sys2Proof.Machine
end

section
/-! PROOFS. 30_encoding.md section 5 (R81): the words of a pseudo-instruction and what offering them in turn does. -/

namespace Sys2Proof.Machine

/-! ### Assembling a list of commands -/

/-- The line that writes a command, its operands as numbers; an ILLEGAL is written by `.word` (30_encoding.md R80). -/
def lineOf : Instr → AsmCommand
  | .nop => .nop
  | .csumClr => .csumClr
  | .csumAdd b => .csumAdd b.toNat
  | .csumChk b => .csumChk b.toNat
  | .fpLdd t o f => .fpLdd t.toNat o.toNat f.toNat
  | .fpSend v tid => .fpSend tid.toNat v.toNat
  | .statClr => .statClr
  | .illegal w | .illegalHigh w => .word w.toNat

/-- Every well-formed command can be written, and its line names it. -/
theorem commandInstr_lineOf {i : Instr} (h : i.WellFormed) : commandInstr (lineOf i) = .ok i := by
  cases i with
  | nop | csumClr | statClr => rfl
  | csumAdd b | csumChk b => exact rangeCheck_eq_ok_iff.2 ⟨Nat.le_of_lt_succ b.isLt, by simp⟩
  | fpLdd t o f =>
    exact rangeCheck_eq_ok_iff.2
      ⟨⟨Nat.le_of_lt_succ t.isLt, Nat.le_of_lt_succ o.isLt, Nat.le_of_lt_succ f.isLt⟩, by simp⟩
  | fpSend v tid =>
    exact rangeCheck_eq_ok_iff.2 ⟨⟨Nat.le_of_lt_succ tid.isLt, Bool.toNat_le v⟩, by cases v <;> simp⟩
  | illegal w | illegalHigh w =>
    have hw := w.isLt
    have hdecode := decode_encode h
    rw [encode] at hdecode
    refine rangeCheck_eq_ok_iff.2 ⟨by omega, ?_⟩
    rw [BitVec.ofNat_toNat, BitVec.setWidth_eq, hdecode]

theorem assembleAll_lineOf {is : List Instr} (h : ∀ i ∈ is, i.WellFormed) :
    assembleAll (is.map lineOf) = .ok (is.map encode) := by
  induction is with
  | nil => rfl
  | cons i is ih =>
    obtain ⟨hi, his⟩ := List.forall_mem_cons.1 h
    simp only [List.map_cons, assembleAll, assembleCommand, commandInstr_lineOf hi, ih his]

/-! ### Offering commands to an idle block -/

/-- An idle block executes the command whose word it is offered. -/
theorem edge_offering (r : WellFormedRom) {i : Instr} (hwf : i.WellFormed) (ready : Bool) {s : State}
    (hb : s.busy = false) : edge r (offering (encode i) ready) s = exec i s := by
  rw [edge_accept r rfl rfl hb, offering, decode_encode hwf]

theorem csum_cons (b : Byte) (bs : List Byte) (n : Nat) : csum (b :: bs) (n + 1) = b + csum bs n := by
  apply BitVec.eq_of_toNat_eq
  simp [csum]

/-- CSUM.ADD words offered in turn add the checksum of their bytes to ACC (40_checksum.md R92). -/
theorem runEdges_csumAdds (r : WellFormedRom) (ready : Bool) (bs : List Byte) {s : State} (hb : s.busy = false) :
    runEdges r (bs.map fun b => offering (encode (.csumAdd b)) ready) s =
      .next { s with acc := s.acc + csum bs bs.length } := by
  induction bs generalizing s with
  | nil => simp [csum_zero]
  | cons b bs ih =>
    have hedge : edge r (offering (encode (.csumAdd b)) ready) s = .next (s.addAcc b) := edge_offering r rfl ready hb
    rw [List.map_cons, runEdges_cons r hedge, ih (s := s.addAcc b) hb, List.length_cons, csum_cons, ← BitVec.add_assoc]
    rfl

/-- The commands of CSUM.VERIFY (30_encoding.md R81). -/
def verifyInstrs (c : Byte) (bs : List Byte) : List Instr := .csumClr :: bs.map .csumAdd ++ [.csumChk c]

theorem expandPseudo_verify (c : Byte) (bs : List Byte) :
    expandPseudo (.verify c.toNat (bs.map BitVec.toNat)) = (verifyInstrs c bs).map lineOf := by
  simp [expandPseudo, verifyInstrs, lineOf, Function.comp_def]

theorem wellFormed_verifyInstrs (c : Byte) (bs : List Byte) : ∀ i ∈ verifyInstrs c bs, i.WellFormed := by
  intro i hi
  simp only [verifyInstrs, List.mem_append, List.mem_cons, List.mem_map, List.not_mem_nil, or_false] at hi
  rcases hi with (rfl | ⟨b, -, rfl⟩) | rfl <;> rfl

/-- CSUM.VERIFY offered word by word: ACC cleared, the bytes added, MATCH the comparison with `c` (40_checksum.md R93, R95). -/
theorem runEdges_verify (r : WellFormedRom) (ready : Bool) (c : Byte) (bs : List Byte) {s : State} (hb : s.busy = false) :
    runEdges r ((verifyInstrs c bs).map fun i => offering (encode i) ready) s =
      .next { s with acc := csum bs bs.length, matched := decide (csum bs bs.length = c) } := by
  have hclr : edge r (offering (encode .csumClr) ready) s = .next s.clearAcc := edge_offering r rfl ready hb
  have hadds := runEdges_csumAdds r ready bs (s := s.clearAcc) hb
  have hchk : edge r (offering (encode (.csumChk c)) ready) { s with acc := 0x00 + csum bs bs.length } =
      .next { s with acc := 0x00 + csum bs bs.length, matched := matchFlag (0x00 + csum bs bs.length) c } :=
    edge_offering r rfl ready hb
  rw [verifyInstrs, List.cons_append, List.map_cons, List.map_append, List.map_map, runEdges_cons r hclr]
  refine (runEdges_append r hadds _).trans ((runEdges_cons r hchk []).trans ?_)
  rw [runEdges_nil, zero_add, matchFlag]
  rfl

/-- Settles O43: each line of the expansion names a command whose word decodes to it, and the commands are run in turn. -/
theorem verifyLineDecidesTheChecksum : Obligations.VerifyLineDecidesTheChecksum := by
  unfold Obligations.VerifyLineDecidesTheChecksum
  intro rom s c bs ready hb
  refine ⟨(verifyInstrs c bs).map encode, ?assembles, by simp [verifyInstrs], ?runs⟩
  case assembles =>
    rw [assembleLine, expandLine, expandPseudo_verify]
    exact assembleAll_lineOf (wellFormed_verifyInstrs c bs)
  case runs =>
    rw [List.map_map]
    exact runEdges_verify rom ready c bs hb

end Sys2Proof.Machine
end

section
/-! PROOFS. 41_packer.md R105 to R108: a frame sent to its last byte; and 30_encoding.md R81: the words of UPD.TEMP. -/

namespace Sys2Proof.Machine

section

variable (r : WellFormedRom) {s : State}

/-! ### A frame sent to its end (41_packer.md R104 to R108) -/

/-- The transfer of the last byte ends the frame: ACC stays at the checksum and the block is idle. -/
theorem transferByte_afterBytes_last {k : Nat} (hk : k + 1 = r.rom.len s.tsel) (b : Byte) :
    (s.afterBytes r.rom k).transferByte r.rom b =
      { s with acc := frameChecksum r.rom s.tsel s.var s.dig, busy := false, idx := 0 } := by
  have hidx := afterBytes_idx_toNat r (s := s) (k := k) (by omega)
  have hlast : (s.afterBytes r.rom k).atLast r.rom = true := by
    rw [State.atLast, hidx, beq_iff_eq]
    exact hk
  have hcso : r.rom.cso s.tsel ≤ k := by
    rw [TemplateRom.cso]
    omega
  have hsum : (s.afterBytes r.rom k).acc = frameChecksum r.rom s.tsel s.var s.dig := by
    rw [State.afterBytes, Nat.min_eq_right hcso, csum_frame_of_le _ _ _ _ (Nat.le_refl _)]
    rfl
  have hbelow : ¬k < r.rom.cso (s.afterBytes r.rom k).tsel := Nat.not_lt.2 hcso
  rw [State.transferByte, hidx, hlast, if_pos rfl, if_pos rfl, if_neg hbelow, hsum]
  rfl

/-- From the start of a frame, edges without reset of which the last transfers the frame's last byte send the frame. -/
theorem runEdges_frame {inps : List Inputs} {last : Inputs} (hb : s.busy = true) (hn : NoReset (inps ++ [last]))
    (hlast : last.outReady = true) (hcount : readyCount inps + 1 = r.rom.len s.tsel) :
    emitted r (inps ++ [last]) (s.afterBytes r.rom 0) = frame r.rom s.tsel s.var s.dig ∧
    runEdges r (inps ++ [last]) (s.afterBytes r.rom 0) =
      .next { s with acc := frameChecksum r.rom s.tsel s.var s.dig, busy := false, idx := 0 } := by
  have hnInps : NoReset inps := fun inp h => hn inp (List.mem_append_left _ h)
  have hrst : last.rst = false := hn last (List.mem_append_right _ (List.mem_singleton_self last))
  obtain ⟨hemit, hrun⟩ := runEdges_afterBytes r (s := s) (k := 0) hb hnInps (by omega)
  rw [Nat.zero_add] at hrun
  have hlt : readyCount inps < (frame r.rom s.tsel s.var s.dig).length := by
    rw [length_frame]
    omega
  have hbyte := List.getElem?_eq_getElem hlt
  have hpres := (presented_afterBytes r (s := s) (by omega)).trans hbyte
  have hedge := edge_transfer r hrst hlast (s := s.afterBytes r.rom (readyCount inps)) hb hpres
  rw [transferByte_afterBytes_last r hcount] at hedge
  refine ⟨?_, (runEdges_append r hrun [last]).trans (runEdges_cons r hedge [])⟩
  rw [emitted_append r hrun, hemit, emitted_cons r hedge, transferred_ready r hrst hlast
    (s := s.afterBytes r.rom (readyCount inps)) hb, hpres, List.drop_zero, emitted_nil,
    List.append_nil, Option.toList_some, List.take_concat_get', List.take_of_length_le]
  rw [length_frame]
  omega

/-- The state of a block that has sent the frame of `tid`, `v` and its own digits (41_packer.md R107). -/
def State.afterFrame (rom : TemplateRom) (v : Bool) (tid : TemplateId) (s : State) : State :=
  { s with acc := frameChecksum rom tid v s.dig, tsel := tid, var := v, idx := 0, busy := false }

/-- With the sink always ready, the edges of a frame are as many as its bytes. -/
theorem runEdges_frame_of_ready {v : Bool} {tid : TemplateId} (htid : tid.toNat ≤ 4) {inps : List Inputs}
    (hn : NoReset inps) (hready : ∀ inp ∈ inps, inp.outReady = true) (hlen : inps.length = r.rom.len tid) :
    emitted r inps (s.startFrame v tid) = frame r.rom tid v s.dig ∧
    runEdges r inps (s.startFrame v tid) = .next (s.afterFrame r.rom v tid) := by
  have hpos := (r.len_bounds htid).1
  rcases List.eq_nil_or_concat inps with rfl | ⟨init, last, rfl⟩
  · rw [List.length_nil] at hlen
    omega
  rw [List.concat_eq_append] at *
  have hcount : readyCount init + 1 = r.rom.len tid := by
    rw [← hlen, List.length_append, List.length_singleton, readyCount, List.countP_eq_length.2]
    exact fun inp h => hready inp (List.mem_append_left _ h)
  have hlast := hready last (List.mem_append_right _ (List.mem_singleton_self last))
  rw [← afterBytes_zero_startFrame r.rom]
  exact runEdges_frame r (s := s.startFrame v tid) rfl hn hlast hcount

/-- A legal FP.SEND offered to an idle block, then the edges of its frame. -/
theorem runEdges_send {v : Bool} {tid : TemplateId} (hb : s.busy = false) (hl : sendLegal v tid = true)
    {inps : List Inputs} (hn : NoReset inps) (hready : ∀ inp ∈ inps, inp.outReady = true)
    (hlen : inps.length = r.rom.len tid) (ready : Bool) :
    emitted r (offering (encode (.fpSend v tid)) ready :: inps) s = frame r.rom tid v s.dig ∧
    runEdges r (offering (encode (.fpSend v tid)) ready :: inps) s = .next (s.afterFrame r.rom v tid) := by
  have hedge : edge r (offering (encode (.fpSend v tid)) ready) s = .next (s.startFrame v tid) :=
    (edge_offering r rfl ready hb).trans (execFpSend_legal hl s)
  rw [emitted_cons r hedge, runEdges_cons r hedge, transferred_idle r hb]
  exact runEdges_frame_of_ready r (sendLegal_id hl) hn hready hlen

end

/-! ### UPD.TEMP (30_encoding.md R81) -/

/-- The commands of UPD.TEMP. -/
def updTempInstrs (d : Digits) (v : Bool) : List Instr :=
  [.fpLdd d.tens d.ones d.tenths, .fpSend false 0, .fpSend v 2]

theorem assembleLine_updTemp (d : Digits) (v : Bool) :
    assembleLine (.pseudo (.updTemp d.tens.toNat d.ones.toNat d.tenths.toNat v.toNat)) =
      .ok ((updTempInstrs d v).map encode) := by
  refine assembleAll_lineOf (is := updTempInstrs d v) fun i hi => ?_
  simp only [updTempInstrs, List.mem_cons, List.not_mem_nil, or_false] at hi
  rcases hi with rfl | rfl | rfl <;> rfl

/-- Settles O47: the digits are loaded at the first edge, and two FP.SENDs each send a frame of those digits. -/
theorem updTempEmitsClearThenDraw : Obligations.UpdTempEmitsClearThenDraw := by
  unfold Obligations.UpdTempEmitsClearThenDraw
  intro rom s d v fill fill' hb htens hones htenths hn hready hlen hn' hready' hlen'
  refine ⟨_, _, _, assembleLine_updTemp d v, ?_⟩
  have hdigits : edge rom (offering (encode (.fpLdd d.tens d.ones d.tenths)) true) s = .next (s.loadDigits d) :=
    (edge_offering rom rfl true hb).trans (execFpLdd_legal ((Digits.legal_iff d).2 ⟨htens, hones, htenths⟩) s)
  obtain ⟨hemitClear, hrunClear⟩ := runEdges_send rom (s := s.loadDigits d) (v := false) (tid := 0) hb (by decide) hn
    hready (hlen.trans rom.len_clear.1.symm) true
  obtain ⟨hemitDraw, hrunDraw⟩ := runEdges_send rom (s := (s.loadDigits d).afterFrame rom.rom false 0) (v := v) (tid := 2)
    rfl (by simp [sendLegal_iff]) hn' hready' hlen' true
  rw [List.cons_append, emitted_cons rom hdigits, runEdges_cons rom hdigits, transferred_idle rom hb,
    emitted_append rom hrunClear, runEdges_append rom hrunClear, hemitClear, hemitDraw, hrunDraw]
  exact ⟨rfl, rfl⟩

end Sys2Proof.Machine
end

section
/-! PROOFS. 40_checksum.md: the checksum commands, the laws of the checksum function, and what the accumulator computes. -/

namespace Sys2Proof.Machine

/-! ### The checksum commands (40_checksum.md R91 to R93) -/

/-- The only word of OP 1 with no reserved bit set (30_encoding.md R75). -/
theorem eq_csumClr_word_iff {w : Word} (h : w.toNat / 4096 = 1) : w = 0x1000 ↔ w.toNat % 4096 = 0 := by
  have hnum : w = 0x1000 ↔ w.toNat = 0x1000 := BitVec.toNat_inj.symm
  rw [hnum]
  omega

/-- A byte operand may be cut to 8 bits before or after it is read as a byte. -/
theorem ofNat_mod_256 (n : Nat) : BitVec.ofNat 8 (n % 256) = BitVec.ofNat 8 n :=
  BitVec.eq_of_toNat_eq (Nat.mod_mod n 256)

/-- Settles O10: the decoder's row of OP 1, and the operation CSUM.CLR is. -/
theorem csumClrClearsTheAccumulator : Obligations.CsumClrClearsTheAccumulator := by
  unfold Obligations.CsumClrClearsTheAccumulator
  refine ⟨fun w hop => ?_, fun _ => rfl⟩
  simp only [decode_numeric, hop, eq_csumClr_word_iff hop]

/-- Settles O11: the decoder's row of OP 2, and the sum of two bytes read as numbers. -/
theorem csumAddAddsModulo256 : Obligations.CsumAddAddsModulo256 := by
  unfold Obligations.CsumAddAddsModulo256
  refine ⟨fun w hop => ?_, fun imm8 s => ⟨s.addAcc imm8, rfl, BitVec.toNat_add s.acc imm8, rfl⟩⟩
  simp only [decode_numeric, hop, ofNat_mod_256]

theorem matchFlag_iff (acc imm8 : Byte) : matchFlag acc imm8 = true ↔ acc.toNat = imm8.toNat := by
  rw [matchFlag, beq_iff_eq, BitVec.toNat_inj]

/-- Settles O12: the decoder's row of OP 3, and what MATCH records. -/
theorem csumChkRecordsTheComparison : Obligations.CsumChkRecordsTheComparison := by
  unfold Obligations.CsumChkRecordsTheComparison
  refine ⟨fun w hop => ?_, fun imm8 s => ⟨s.setMatched (matchFlag s.acc imm8), rfl, matchFlag_iff s.acc imm8, rfl⟩⟩
  simp only [decode_numeric, hop, ofNat_mod_256]

/-! ### The laws of the checksum function (40_checksum.md R94) -/

/-- The checksum is the sum of the first `n` bytes in the ring of bytes. -/
theorem csum_eq_sum_take (s : List Byte) (n : Nat) : csum s n = (s.take n).sum := by
  induction s generalizing n with
  | nil => simp [csum]
  | cons b s ih =>
    cases n with
    | zero => rfl
    | succ n => rw [csum_cons, ih, List.take_succ_cons, List.sum_cons]

theorem csum_length (s : List Byte) : csum s s.length = s.sum := by rw [csum_eq_sum_take, List.take_length]

theorem csum_append_singleton (s : List Byte) (b : Byte) : csum (s ++ [b]) (s.length + 1) = csum s s.length + b := by
  rw [csum_succ (List.getElem?_concat_length ..), csum_congr (List.take_left.trans (List.take_length ..).symm)]

/-- Changing a byte in range from `a` to `b` adds `b - a`. -/
theorem csum_set {s : List Byte} {n j : Nat} {a : Byte} (hj : j < n) (ha : s[j]? = some a) (b : Byte) :
    csum (s.set j b) n = csum s n + (b - a) := by
  obtain ⟨hlen, rfl⟩ := List.getElem?_eq_some_iff.1 ha
  have htake : j < (s.take n).length := by rw [List.length_take]; omega
  rw [csum_eq_sum_take, csum_eq_sum_take, List.take_set, List.sum_set', dif_pos htake, List.getElem_take,
    neg_add_eq_sub]

/-- Changing two bytes in range adds both differences. -/
theorem csum_set_set {s : List Byte} {n j k : Nat} {a a' : Byte} (hj : j < n) (hk : k < n) (hjk : j ≠ k)
    (ha : s[j]? = some a) (ha' : s[k]? = some a') (b b' : Byte) :
    csum ((s.set j b).set k b') n = csum s n + ((b - a) + (b' - a')) := by
  have hk' : (s.set j b)[k]? = some a' := by rw [List.getElem?_set_ne hjk, ha']
  rw [csum_set hk hk', csum_set hj ha, add_assoc]

/-- Settles O41: each law is one about sums in the ring of bytes. -/
theorem checksumLaws : Obligations.ChecksumLaws := by
  unfold Obligations.ChecksumLaws
  refine ⟨?wraps, fun _ _ _ => csum_congr, ?permutes, ?oneChange, ?twoChanges⟩
  case wraps =>
    intro s b
    rw [csum_append_singleton, BitVec.toNat_add]
  case permutes =>
    intro s s' hperm
    rw [csum_length, csum_length, hperm.sum_eq]
  case oneChange =>
    intro s n j a b hj ha
    refine ⟨csum_set hj ha b, fun hab hsame => hab ?_⟩
    rw [csum_set hj ha, add_eq_left, sub_eq_zero] at hsame
    exact hsame.symm
  case twoChanges =>
    intro s n j k a b a' b' hj hk hjk ha ha'
    rw [csum_set_set hj hk hjk ha ha', add_eq_left]

/-! ### What the accumulator computes (40_checksum.md R95) -/

/-- A command other than CSUM.CLR, CSUM.ADD and a legal FP.SEND writes neither ACC nor BUSY. -/
theorem exec_keeps_acc {i : Instr} {s t : State} (hx : exec i s = .next t) (hclr : i ≠ .csumClr)
    (hadd : ∀ b, i ≠ .csumAdd b) (hsend : ∀ v tid, i = .fpSend v tid → sendLegal v tid = false) :
    t.acc = s.acc ∧ t.busy = s.busy := by
  rcases exec_cases hx with ⟨-, rfl⟩ | ⟨hi, -⟩ | ⟨b, hi, -⟩ | ⟨b, -, rfl⟩ | ⟨a, o, f, -, -, rfl⟩ |
    ⟨a, o, f, -, -, rfl⟩ | ⟨v, tid, hi, hl, -⟩ | ⟨v, tid, -, -, rfl⟩ | ⟨-, rfl⟩ | ⟨-, rfl⟩
  case inr.inl => exact absurd hi hclr
  case inr.inr.inl => exact absurd hi (hadd b)
  case inr.inr.inr.inr.inr.inr.inl => cases hl.symm.trans (hsend v tid hi)
  all_goals simp

theorem addend_eq_some_iff (inp : Inputs) (b : Byte) :
    addend inp = some b ↔ inp.cmdValid = true ∧ decode inp.cmd = .csumAdd b := by
  cases hv : inp.cmdValid with
  | false => simp [addend, hv]
  | true => cases hi : decode inp.cmd <;> simp [addend, hv, hi]

section

variable (r : WellFormedRom) {inp : Inputs} {s : State}

/-- An idle block adds the byte of a CSUM.ADD it is offered. -/
theorem edge_of_addend {b : Byte} (hr : inp.rst = false) (hb : s.busy = false) (hadd : addend inp = some b) :
    edge r inp s = .next (s.addAcc b) := by
  obtain ⟨hv, hi⟩ := (addend_eq_some_iff inp b).1 hadd
  rw [edge_accept r hr hv hb, hi]
  rfl

/-- An idle block offered none of the commands that write ACC stays idle and keeps ACC. -/
theorem edge_of_no_addend (hr : inp.rst = false) (hb : s.busy = false) (hk : KeepsHostSum inp)
    (hadd : addend inp = none) : ∃ t, edge r inp s = .next t ∧ t.busy = false ∧ t.acc = s.acc := by
  cases hv : inp.cmdValid with
  | false => exact ⟨s, edge_idle r hr hv hb, hb, rfl⟩
  | true =>
    obtain ⟨hclr, hsend⟩ := hk hv
    have hnoAdd (b : Byte) (hi : decode inp.cmd = .csumAdd b) : False := by
      cases hadd.symm.trans ((addend_eq_some_iff inp b).2 ⟨hv, hi⟩)
    obtain ⟨t, hx⟩ := exec_next (decode inp.cmd) s
    obtain ⟨hacc, hbusy⟩ := exec_keeps_acc hx hclr hnoAdd fun v tid hi => absurd hi (hsend v tid)
    exact ⟨t, (edge_accept r hr hv hb).trans hx, hbusy.trans hb, hacc⟩

/-- Over edges without reset at which neither CSUM.CLR nor FP.SEND is offered, an idle block stays idle and ACC gains the
checksum of the bytes the CSUM.ADDs carry. -/
theorem runEdges_keepsHostSum {inps : List Inputs} (hb : s.busy = false) (hn : NoReset inps)
    (hk : ∀ inp ∈ inps, KeepsHostSum inp) :
    ∃ t, runEdges r inps s = .next t ∧ t.busy = false ∧
      t.acc = s.acc + csum (inps.filterMap addend) (inps.filterMap addend).length := by
  induction inps generalizing s with
  | nil => exact ⟨s, rfl, hb, (add_zero s.acc).symm⟩
  | cons inp inps ih =>
    obtain ⟨hr, hn⟩ := noReset_cons.1 hn
    obtain ⟨hinp, hk⟩ := List.forall_mem_cons.1 hk
    cases hadd : addend inp with
    | some b =>
      obtain ⟨t, hrun, hbusy, hacc⟩ := ih (s := s.addAcc b) hb hn hk
      refine ⟨t, (runEdges_cons r (edge_of_addend r hr hb hadd) inps).trans hrun, hbusy, ?_⟩
      rw [List.filterMap_cons_some hadd, List.length_cons, csum_cons, ← add_assoc]
      exact hacc
    | none =>
      obtain ⟨u, hedge, hidle, hkeep⟩ := edge_of_no_addend r hr hb hinp hadd
      obtain ⟨t, hrun, hbusy, hacc⟩ := ih hidle hn hk
      rw [List.filterMap_cons_none hadd, ← hkeep]
      exact ⟨t, (runEdges_cons r hedge inps).trans hrun, hbusy, hacc⟩

end

/-- Settles O42: CSUM.CLR makes ACC 0 in the idle block, and from there ACC gains the checksum. -/
theorem accumulatorComputesTheChecksum : Obligations.AccumulatorComputesTheChecksum := by
  unfold Obligations.AccumulatorComputesTheChecksum
  intro rom s first inps haccepts hclr hn hk
  obtain ⟨hv, hready⟩ := Bool.and_eq_true_iff.1 haccepts
  obtain ⟨hb, hr⟩ := (cmdReady_iff first.rst s).1 hready
  have hedge : edge rom first s = .next s.clearAcc := by rw [edge_accept rom hr hv hb, hclr]; rfl
  obtain ⟨t, hrun, hbusy, hacc⟩ := runEdges_keepsHostSum rom (s := s.clearAcc) hb hn hk
  exact ⟨t, (runEdges_cons rom hedge inps).trans hrun, hbusy, hacc.trans (zero_add _)⟩

end Sys2Proof.Machine
end

section
/-! PROOFS. 41_packer.md sections 1 to 4 (R100 to R104): the digit encoding, the packer's commands, the byte multiplexer and
the transition at an edge. -/

namespace Sys2Proof.Machine

/-! ### The digit encoding (41_packer.md R100) -/

theorem asciiDigit_toNat (d : Digit) : (asciiDigit d).toNat = 0x30 + d.toNat := by
  have hd := d.isLt
  rw [asciiDigit, BitVec.toNat_add, BitVec.toNat_setWidth, BitVec.toNat_ofNat]
  omega

theorem asciiTens_of_ne_zero {d : Digit} (h : d ≠ 0) : asciiTens d = asciiDigit d := if_neg h

/-- Settles O30: 0x30 + d is a byte, and only the tens digit 0 is blanked. -/
theorem digitsAreSentInAscii : Obligations.DigitsAreSentInAscii := by
  unfold Obligations.DigitsAreSentInAscii
  intro d _
  refine ⟨asciiDigit_toNat d, fun hzero => ?_, fun hne => ?_⟩
  · obtain rfl : d = 0 := BitVec.eq_of_toNat_eq hzero
    rfl
  · have hd : d ≠ 0 := by
      rintro rfl
      exact hne rfl
    rw [asciiTens_of_ne_zero hd, asciiDigit_toNat]

/-! ### The packer's commands (41_packer.md R101, R102) -/

/-- An operand field may be cut to its width before or after it is read as a bit vector. -/
theorem ofNat_mod_two_pow (w n : Nat) : BitVec.ofNat w (n % 2 ^ w) = BitVec.ofNat w n :=
  BitVec.eq_of_toNat_eq (by simp)

theorem digits_illegal_iff (d : Digits) :
    d.legal = false ↔ 9 < d.tens.toNat ∨ 9 < d.ones.toNat ∨ 9 < d.tenths.toNat := by
  rw [← Bool.not_eq_true, Digits.legal_iff]
  omega

/-- Settles O13: the decoder's row of OP 4, and the two outcomes of the digit check. -/
theorem fpLddLoadsAllDigitsOrNone : Obligations.FpLddLoadsAllDigitsOrNone := by
  unfold Obligations.FpLddLoadsAllDigitsOrNone
  refine ⟨fun w hop => ?_, fun t o f s => ⟨fun hlegal => ?_, fun hbad => ?_⟩⟩
  · have hcut (n : Nat) : BitVec.ofNat 4 (n % 16) = BitVec.ofNat 4 n := ofNat_mod_two_pow 4 n
    simp only [decode_numeric, hop, hcut]
  · exact execFpLdd_legal ((Digits.legal_iff ⟨t, o, f⟩).2 hlegal) s
  · exact execFpLdd_illegal ((digits_illegal_iff ⟨t, o, f⟩).2 hbad) s

/-- A new frame presents STX (41_packer.md R102). -/
theorem presented_startFrame (r : WellFormedRom) (v : Bool) {tid : TemplateId} (htid : tid.toNat ≤ 4) (s : State) :
    (s.startFrame v tid).presented r.rom = some r.rom.stx := by
  have hlen := (r.len_bounds htid).1
  rw [← afterBytes_zero_startFrame r.rom, presented_afterBytes r (Nat.lt_of_lt_of_le (by decide) hlen)]
  exact (frame_getElem?_outside r v s.dig htid (.inl (by decide))).trans (r.first_byte htid)

theorem sendLegal_of_toNat {v : Bool} {tid : TemplateId}
    (h : tid.toNat ≤ 4 ∧ (v = false ∨ tid.toNat = 2 ∨ tid.toNat = 3)) : sendLegal v tid = true := by
  rw [sendLegal_iff, ← BitVec.toNat_inj (x := tid), ← BitVec.toNat_inj (x := tid)]
  exact h

/-- Settles O14: the decoder's row of OP 5, and the two outcomes of the operand check. -/
theorem fpSendStartsAFrameOrRaises : Obligations.FpSendStartsAFrameOrRaises := by
  unfold Obligations.FpSendStartsAFrameOrRaises
  refine ⟨fun w hop => ?_, fun rom v tid s => ⟨fun hlegal => ?_, fun hbad => ?_⟩⟩
  · have hcut : BitVec.ofNat 3 (w.toNat % 8) = BitVec.ofNat 3 w.toNat := ofNat_mod_two_pow 3 w.toNat
    simp only [decode_numeric, hop, hcut]
  · refine ⟨s.startFrame v tid, execFpSend_legal (sendLegal_of_toNat hlegal) s, rfl, rfl, ?_⟩
    rw [outputs_of_outValid rom.rom rfl]
    exact presented_startFrame rom v hlegal.1 s
  · exact execFpSend_illegal ((sendLegal_eq_false_iff v tid).2 hbad) s

/-! ### The byte multiplexer (41_packer.md R103) -/

section

variable (r : WellFormedRom) {t : TemplateId} (v : Bool) (d : Digits) (acc : Byte) {i : Index}

/-- Away from CSO, ByteAt presents the frame's byte whatever ACC holds. -/
theorem byteAt_eq_frame_of_ne_cso (h : i.toNat < r.rom.len t) (hcso : i.toNat ≠ r.rom.cso t) :
    byteAt r.rom t v d acc i = (frame r.rom t v d)[i.toNat]? := by
  rw [byteAt_eq_patched r t v d acc h hcso, frame_getElem? _ _ _ _ hcso]

/-- Where the opcode or a digit is patched in, ByteAt presents it. -/
theorem byteAt_of_mem_drawPatches (h : i.toNat < r.rom.len t) (ht : t = 2 ∨ t = 3) {j : Nat} {b : Byte} (hj : i.toNat = j)
    (hmem : (j, b) ∈ drawPatches r.rom t v d) : byteAt r.rom t v d acc i = some b := by
  have hbefore := (drawPatches_indices r v d ht).2 _ hmem
  rw [byteAt_eq_frame_of_ne_cso r v d acc h (hj ▸ Nat.ne_of_lt hbefore), hj]
  exact frame_getElem?_of_mem_drawPatches r v d ht hmem

end

/-- Settles O31: away from CSO ByteAt reads the frame, whose patches are at distinct indices before CSO. -/
theorem byteAtSelectsByIndexAlone : Obligations.ByteAtSelectsByIndexAlone := by
  unfold Obligations.ByteAtSelectsByIndexAlone
  intro rom t v d acc i h
  have hpatch {j : Nat} {b : Byte} (ht : t = 2 ∨ t = 3) (hmem : (j, b) ∈ drawPatches rom.rom t v d) (hj : i.toNat = j) :
      byteAt rom.rom t v d acc i = some b := byteAt_of_mem_drawPatches rom v d acc h ht hj hmem
  refine ⟨byteAt_cso _ _ _ _ _ h, fun ht hj => ?opcode, fun ht => hpatch ht (mem_drawPatches rom v d ht).2.1,
    fun ht => hpatch ht (mem_drawPatches rom v d ht).2.2, ?tenths, fun hcso hdraw htenths => ?template⟩
  case opcode =>
    rw [hpatch ht (mem_drawPatches rom v d ht).1 hj]
    cases v <;> rfl
  case tenths =>
    rintro rfl
    exact hpatch (.inl rfl) (.tail _ (.tail _ (.tail _ (.head _))))
  case template =>
    have hread : rom.rom.read t i = (rom.rom.bytes t)[i.toNat]? := rfl
    rw [byteAt_eq_frame_of_ne_cso rom v d acc h hcso,
      frame_getElem?_of_template rom v d hcso hdraw (by rintro rfl; exact htenths rfl), hread, List.getElem?_eq_getElem h]
    exact ⟨_, rfl, rfl⟩

/-! ### The transition at an edge (41_packer.md R104) -/

/-- A transfer at a template in use, in numbers. -/
theorem transferByte_numeric (r : WellFormedRom) {s : State} (ht : s.tsel.toNat ≤ 4) (hb : s.busy = true) (b : Byte) :
    s.transferByte r.rom b =
      { s with
        acc := if s.idx.toNat < r.rom.cso s.tsel then BitVec.ofNat 8 (s.acc.toNat + b.toNat) else s.acc
        busy := if s.idx.toNat = r.rom.len s.tsel - 1 then false else true
        idx := if s.idx.toNat = r.rom.len s.tsel - 1 then 0 else BitVec.ofNat 6 (s.idx.toNat + 1) } := by
  have hidx : BitVec.ofNat 6 (s.idx.toNat + 1) = s.idx + 1 := by simp [BitVec.ofNat_add]
  have hacc : BitVec.ofNat 8 (s.acc.toNat + b.toNat) = s.acc + b := by simp [BitVec.ofNat_add]
  simp only [State.transferByte, atLast_iff r ht, hb, hidx, hacc]

/-- Settles O20: the cases of an edge, of which a transfer is the one that writes numbers. -/
theorem edgeTakesTheTransitionOfR104 : Obligations.EdgeTakesTheTransitionOfR104 := by
  unfold Obligations.EdgeTakesTheTransitionOfR104
  intro rom inp s
  refine ⟨fun hr => edge_reset rom hr s, fun hr hb ho => edge_stall rom hr ho hb, fun hr hb ho b hp => ?_,
    fun hr hb hv => edge_accept rom hr hv hb, fun hr hb hv => edge_idle rom hr hv hb⟩
  have hpopulated : s.idx.toNat < rom.rom.len s.tsel := by
    rw [← byteAt_isSome_iff rom.rom s.tsel s.var s.dig s.acc, hp]
    rfl
  rw [← transferByte_numeric rom (TemplateRom.id_le_of_populated hpopulated) hb]
  exact ⟨(transferred_ready rom hr ho hb).trans hp, edge_transfer rom hr ho hb hp⟩

end Sys2Proof.Machine
end

section
/-! PROOFS. 41_packer.md section 5 (R105 to R111): sent frames are functions of the digits and the ROM, and the checksums of
draw frames in closed form. -/

namespace Sys2Proof.Machine

/-! ### A sent frame (41_packer.md R105 to R108) -/

theorem eq_startFrame_of_exec {v : Bool} {tid : TemplateId} (hl : sendLegal v tid = true) {s t : State}
    (hx : exec (.fpSend v tid) s = .next t) : t = s.startFrame v tid :=
  Host.Outcome.next.inj (hx.symm.trans (execFpSend_legal hl s))

/-- Settles O33: a legal FP.SEND starts a frame with no byte sent, from which the edges send all of it. -/
theorem sentFrameIsThePatchedTemplate : Obligations.SentFrameIsThePatchedTemplate := by
  unfold Obligations.SentFrameIsThePatchedTemplate
  intro rom s s0 v tid inps last hl hx hn hlast hcount
  obtain rfl := eq_startFrame_of_exec hl hx
  have h := runEdges_frame rom (s := s.startFrame v tid) rfl hn hlast hcount
  rwa [afterBytes_zero_startFrame] at h

/-- Edges of which some are ready end with a last ready edge and edges that are not. -/
theorem exists_last_ready {inps : List Inputs} (h : 0 < readyCount inps) :
    ∃ init last rest, inps = init ++ [last] ++ rest ∧ last.outReady = true ∧ ∀ inp ∈ rest, inp.outReady = false := by
  induction inps with
  | nil => cases h
  | cons inp inps ih =>
    rcases Nat.eq_zero_or_pos (readyCount inps) with hzero | hpos
    · refine ⟨[], inp, inps, rfl, ?_, by simpa [readyCount, List.countP_eq_zero] using hzero⟩
      by_contra hnot
      rw [readyCount, List.countP_cons_of_neg hnot] at h
      exact absurd hzero (Nat.pos_iff_ne_zero.1 h)
    · obtain ⟨init, last, rest, rfl, hlast, hrest⟩ := ih hpos
      exact ⟨inp :: init, last, rest, rfl, hlast, hrest⟩

theorem readyCount_append (xs ys : List Inputs) : readyCount (xs ++ ys) = readyCount xs + readyCount ys :=
  List.countP_append

/-- The sink has as many of the frame's bytes as there were ready edges, the whole frame included. -/
theorem emitted_startFrame (r : WellFormedRom) {v : Bool} {tid : TemplateId} (htid : tid.toNat ≤ 4) (s : State)
    {inps : List Inputs} (hn : NoReset inps) (hcount : readyCount inps ≤ r.rom.len tid) :
    emitted r inps (s.startFrame v tid) = (frame r.rom tid v s.dig).take (readyCount inps) := by
  rw [← afterBytes_zero_startFrame r.rom]
  rcases Nat.lt_or_eq_of_le hcount with hpart | hwhole
  · exact (runEdges_afterBytes r (s := s.startFrame v tid) (k := 0) rfl hn (by rwa [Nat.zero_add])).1
  · have hlen := (r.len_bounds htid).1
    obtain ⟨init, last, rest, rfl, hlast, hrest⟩ := exists_last_ready (inps := inps) (by omega)
    have hinit : readyCount init + 1 = r.rom.len tid := by
      have hnone : readyCount rest = 0 := List.countP_eq_zero.2 fun inp h => by simp [hrest inp h]
      have hone : readyCount [last] = 1 := List.countP_cons_of_pos hlast
      rw [← hwhole, readyCount_append, readyCount_append, hnone, hone]
    obtain ⟨hemit, hrun⟩ := runEdges_frame r (s := s.startFrame v tid) rfl
      (fun inp h => hn inp (List.mem_append_left _ h)) hlast hinit
    rw [emitted_append r hrun, hemit, emitted_of_not_ready r hrest, hwhole, List.append_nil, List.take_of_length_le]
    · rfl
    · rw [length_frame]

/-- Settles O37: on both sides the sink has the same number of bytes of one frame. -/
theorem sameDigitsSameFrame : Obligations.SameDigitsSameFrame := by
  unfold Obligations.SameDigitsSameFrame
  intro rom s s' s0 s0' v tid inps inps' hl hdig hx hx' hn hn' hcount hlen
  obtain rfl := eq_startFrame_of_exec hl hx
  obtain rfl := eq_startFrame_of_exec hl hx'
  rw [emitted_startFrame rom (sendLegal_id hl) s hn hlen,
    emitted_startFrame rom (sendLegal_id hl) s' hn' (hcount ▸ hlen), hdig, hcount]

/-! ### ACC after a frame (41_packer.md R107) -/

section

variable (r : WellFormedRom) {s : State}

/-- An idle block offered no command that writes ACC stays idle and keeps ACC. -/
theorem edge_of_keepsAcc {inp : Inputs} (hr : inp.rst = false) (hb : s.busy = false) (hk : KeepsAcc inp) :
    ∃ t, edge r inp s = .next t ∧ t.busy = false ∧ t.acc = s.acc := by
  cases hv : inp.cmdValid with
  | false => exact ⟨s, edge_idle r hr hv hb, hb, rfl⟩
  | true =>
    obtain ⟨hclr, hadd, hsend⟩ := hk hv
    obtain ⟨t, hx⟩ := exec_next (decode inp.cmd) s
    obtain ⟨hacc, hbusy⟩ := exec_keeps_acc hx hclr hadd hsend
    exact ⟨t, (edge_accept r hr hv hb).trans hx, hbusy.trans hb, hacc⟩

theorem runEdges_keepsAcc {inps : List Inputs} (hb : s.busy = false) (hn : NoReset inps)
    (hk : ∀ inp ∈ inps, KeepsAcc inp) : ∃ t, runEdges r inps s = .next t ∧ t.busy = false ∧ t.acc = s.acc := by
  induction inps generalizing s with
  | nil => exact ⟨s, rfl, hb, rfl⟩
  | cons inp inps ih =>
    obtain ⟨hr, hn⟩ := noReset_cons.1 hn
    obtain ⟨hinp, hk⟩ := List.forall_mem_cons.1 hk
    obtain ⟨u, hedge, hidle, hkeep⟩ := edge_of_keepsAcc r hr hb hinp
    obtain ⟨t, hrun, hbusy, hacc⟩ := ih hidle hn hk
    exact ⟨t, (runEdges_cons r hedge inps).trans hrun, hbusy, hacc.trans hkeep⟩

end

/-- Settles O34: the frame leaves ACC at its checksum, which is its byte at CSO, and later edges keep it. -/
theorem accumulatorKeepsTheFrameChecksum : Obligations.AccumulatorKeepsTheFrameChecksum := by
  unfold Obligations.AccumulatorKeepsTheFrameChecksum
  intro rom s s0 v tid inps more last hl hx hn hlast hcount hnMore hk
  obtain ⟨hemit, hrun⟩ := sentFrameIsThePatchedTemplate rom s s0 v tid inps last hl hx hn hlast hcount
  obtain ⟨t, hrunMore, hbusy, hacc⟩ := runEdges_keepsAcc rom
    (s := { s0 with acc := frameChecksum rom.rom tid v s.dig, busy := false, idx := 0 }) rfl hnMore hk
  refine ⟨t, (runEdges_append rom hrun more).trans hrunMore, hbusy, ?emitted, rfl,
    fun b => ⟨t.setMatched (matchFlag t.acc b), rfl, ?compared⟩⟩
  case emitted => rw [hemit, frame_cso rom (sendLegal_id hl), hacc]
  case compared =>
    rw [State.setMatched_matched, matchFlag_iff, BitVec.toNat_inj]
    exact eq_comm

/-! ### The fixed frames (41_packer.md R110) -/

/-- Settles O39: a template that is no draw template has no patches. -/
theorem clearAndFlipFramesAreConstant : Obligations.ClearAndFlipFramesAreConstant := by
  unfold Obligations.ClearAndFlipFramesAreConstant
  intro rom t v d ht
  have hfixed : isDraw t = false ∧ t.toNat ≤ 4 := by
    rcases ht with rfl | rfl | rfl
    all_goals decide
  obtain ⟨hdraw, hid⟩ := hfixed
  refine ⟨fun j hj => ?_, ?_⟩
  · rw [frame_getElem? _ _ _ _ hj, patchedTemplate_fixed _ hdraw]
  · rw [frame_cso rom hid, frameChecksum, patchedTemplate_fixed _ hdraw]

/-! ### The checksum of a patched template (41_packer.md R111) -/

/-- The sum of the first `n` bytes at indices not listed. -/
def sumAway (indices : List Nat) (bs : List Byte) (n : Nat) : Byte :=
  (((List.range n).filter fun i => !indices.contains i).map fun i => bs.getD i 0).sum

theorem sumAway_nil {bs : List Byte} {n : Nat} (hn : n ≤ bs.length) : sumAway [] bs n = csum bs n := by
  have htake : (List.range n).map (fun i => bs.getD i 0) = bs.take n := by
    refine List.ext_getElem (by simp [hn]) fun i hi _ => ?_
    have hlt : i < bs.length := by simp at hi; omega
    simp [List.getElem?_eq_getElem hlt]
  rw [sumAway, List.filter_eq_self.2 (by simp), htake, csum_eq_sum_take]

/-- Listing one more index takes the byte there out of the sum. -/
theorem add_sumAway_cons {j n : Nat} {indices : List Nat} (hj : j ∉ indices) (hn : j < n) (bs : List Byte) :
    bs.getD j 0 + sumAway (j :: indices) bs n = sumAway indices bs n := by
  have hmem : j ∈ (List.range n).filter fun i => !indices.contains i := by simp [hn, hj]
  have hnodup : ((List.range n).filter fun i => !indices.contains i).Nodup := List.nodup_range.filter _
  rw [sumAway, sumAway, ← List.sum_map_erase _ hmem, hnodup.erase_eq_filter, List.filter_filter]
  simp only [List.contains_cons, Bool.not_or, bne]

/-- A byte at a listed index is not in the sum. -/
theorem sumAway_set {j : Nat} {indices : List Nat} (hj : j ∈ indices) (bs : List Byte) (b : Byte) (n : Nat) :
    sumAway indices (bs.set j b) n = sumAway indices bs n := by
  refine congrArg List.sum (List.map_congr_left fun i hi => ?_)
  have hne : j ≠ i := by
    rintro rfl
    simp [hj] at hi
  rw [List.getD_eq_getElem?_getD, List.getElem?_set_ne hne, List.getD_eq_getElem?_getD]

/-- The sum of a patched list: the bytes away from the patches, then the patches. -/
theorem csum_patchAll {ps : List (Nat × Byte)} {n : Nat} (hdistinct : (ps.map Prod.fst).Nodup) (hbefore : ∀ p ∈ ps, p.1 < n)
    {bs : List Byte} (hn : n ≤ bs.length) :
    csum (patchAll ps bs) n = sumAway (ps.map Prod.fst) bs n + (ps.map Prod.snd).sum := by
  induction ps generalizing bs with
  | nil => rw [patchAll, List.map_nil, sumAway_nil hn, List.map_nil, List.sum_nil, add_zero]
  | cons p ps ih =>
    obtain ⟨j, b⟩ := p
    obtain ⟨hj, hdistinct⟩ := List.nodup_cons.1 hdistinct
    obtain ⟨hjn, hbefore⟩ := List.forall_mem_cons.1 hbefore
    have hpatched : (bs.set j b).getD j 0 = b := by
      simp [List.getD_eq_getElem?_getD, List.getElem?_set_self (Nat.lt_of_lt_of_le hjn hn)]
    calc csum (patchAll ps (bs.set j b)) n
        = sumAway (ps.map Prod.fst) (bs.set j b) n + (ps.map Prod.snd).sum := ih hdistinct hbefore (by rwa [List.length_set])
      _ = b + sumAway (j :: ps.map Prod.fst) bs n + (ps.map Prod.snd).sum := by
        rw [← add_sumAway_cons hj hjn, hpatched, sumAway_set (List.mem_cons_self ..)]
      _ = sumAway (j :: ps.map Prod.fst) bs n + (b + (ps.map Prod.snd).sum) := by rw [add_comm b, add_assoc]

/-! ### The checksum of a draw frame (41_packer.md R109, R111) -/

section

variable (r : WellFormedRom) {t : TemplateId} (v : Bool) (d : Digits)

/-- K[t] is the sum of the template's bytes before CSO away from the patches. -/
theorem fixedSum_eq_sumAway (rom : TemplateRom) (ht : t = 2 ∨ t = 3) :
    fixedSum rom t = sumAway ((drawPatches rom t v d).map Prod.fst) (rom.bytes t) (rom.cso t) := by
  have hindices : (drawPatches rom t v d).map Prod.fst = opcOff :: digitPositions rom t := by
    rcases ht with rfl | rfl
    all_goals rfl
  rw [hindices, sumAway, ← csum_length, csum, List.take_length, List.map_map]
  simp only [fixedSum, List.contains_cons, Bool.not_or]
  rfl

theorem frameChecksum_draw (ht : t = 2 ∨ t = 3) :
    frameChecksum r.rom t v d = fixedSum r.rom t + (r.rom.opcode t v + (digitBytes t d).sum) := by
  obtain ⟨hdistinct, hbefore⟩ := drawPatches_indices r v d ht
  have hbytes : (drawPatches r.rom t v d).map Prod.snd = r.rom.opcode t v :: digitBytes t d := by
    rcases ht with rfl | rfl
    all_goals rfl
  rw [frameChecksum, patchedTemplate_of_isDraw _ ((isDraw_iff t).2 ht),
    csum_patchAll hdistinct hbefore (Nat.sub_le _ _), ← fixedSum_eq_sumAway v d r.rom ht, hbytes, List.sum_cons]

/-- Changing the tens digit from 0 to 1 adds the step from a space to the digit 1 (41_packer.md R100). -/
theorem sum_digitBytes_tens (ht : t = 2 ∨ t = 3) :
    (digitBytes t { d with tens := 1 }).sum = (digitBytes t { d with tens := 0 }).sum + 0x11 := by
  have hstep : asciiTens 1 = asciiTens 0 + 0x11 := by decide
  rcases ht with rfl | rfl
  all_goals
    simp only [digitBytes, hstep]
    exact add_right_comm _ _ _

end

/-- Settles O40: the patches of a draw template are its opcode and its digits, and all other bytes before CSO add to K. -/
theorem drawChecksumInClosedForm : Obligations.DrawChecksumInClosedForm := by
  unfold Obligations.DrawChecksumInClosedForm
  intro rom v d
  refine ⟨?_, ?_, fun t ht => ?_⟩
  · rw [frameChecksum_draw rom v d (.inl rfl)]
    simp [digitBytes, add_assoc]
  · rw [frameChecksum_draw rom v d (.inr rfl)]
    simp [digitBytes, add_assoc]
  · rw [frameChecksum_draw rom v _ ht, frameChecksum_draw rom v _ ht, sum_digitBytes_tens d ht, add_assoc, add_assoc]

/-! ### The two variants of a draw frame (41_packer.md R109) -/

/-- Patching keeps what two lists have in common at an index. -/
theorem patchAll_getElem?_congr {j : Nat} {bs bs' : List Byte} (ps : List (Nat × Byte)) (hlen : bs.length = bs'.length)
    (h : bs[j]? = bs'[j]?) : (patchAll ps bs)[j]? = (patchAll ps bs')[j]? := by
  induction ps generalizing bs bs' with
  | nil => exact h
  | cons p ps ih =>
    refine ih (by rw [List.length_set, List.length_set, hlen]) ?_
    rw [List.getElem?_set, List.getElem?_set, h, hlen]

/-- Away from the opcode and CSO the variant has no effect on the frame. -/
theorem frame_getElem?_variant (r : WellFormedRom) {t : TemplateId} (ht : t = 2 ∨ t = 3) (v v' : Bool) (d : Digits) {j : Nat}
    (hopcode : j ≠ 4) (hcso : j ≠ r.rom.cso t) : (frame r.rom t v d)[j]? = (frame r.rom t v' d)[j]? := by
  have hdraw := (isDraw_iff t).2 ht
  have hset (b : Byte) : ((r.rom.bytes t).set 4 b)[j]? = (r.rom.bytes t)[j]? := List.getElem?_set_ne (Ne.symm hopcode)
  rw [frame_getElem? _ _ _ _ hcso, frame_getElem? _ _ _ _ hcso, patchedTemplate_of_isDraw _ hdraw,
    patchedTemplate_of_isDraw _ hdraw, drawPatches, drawPatches, patchAll, patchAll]
  exact patchAll_getElem?_congr _ (List.length_set.trans List.length_set.symm) ((hset _).trans (hset _).symm)

/-- Settles O38: the variants write different opcodes at one index, before CSO, and the checksum sums them. -/
theorem variantsDifferInOpcodeAndChecksum : Obligations.VariantsDifferInOpcodeAndChecksum := by
  unfold Obligations.VariantsDifferInOpcodeAndChecksum
  intro rom t d ht
  have hopcode (v : Bool) : (frame rom.rom t v d)[4]? = some (rom.rom.opcode t v) :=
    frame_getElem?_of_mem_drawPatches rom v d ht (mem_drawPatches rom v d ht).1
  refine ⟨fun j => frame_getElem?_variant rom ht false true d, hopcode false, hopcode true, rom.opcodes_differ, ?_⟩
  rw [frameChecksum_draw rom _ d ht, frameChecksum_draw rom _ d ht, TemplateRom.opcode, TemplateRom.opcode, if_pos rfl,
    if_neg Bool.false_ne_true]
  ring

end Sys2Proof.Machine
end

section
/-! PROOFS. 42_system.md: NOP, STAT.CLR, and the words that are no command. -/

namespace Sys2Proof.Machine

/-! ### The words of NOP and STAT.CLR (30_encoding.md R75) -/

/-- Of the words of one OP, that of a format Z command is the one with no reserved bit set. -/
theorem eq_formatZ_word_iff {w z : Word} (hop : w.toNat / 4096 = z.toNat / 4096) (hz : z.toNat % 4096 = 0) :
    w = z ↔ w.toNat % 4096 = 0 := by
  have hnum : w = z ↔ w.toNat = z.toNat := BitVec.toNat_inj.symm
  rw [hnum]
  omega

/-! ### What the system commands do (42_system.md R130 to R132) -/

/-- Settles O9: the decoder's row of OP 0, and the operation NOP is. -/
theorem nopChangesNothing : Obligations.NopChangesNothing := by
  unfold Obligations.NopChangesNothing
  refine ⟨fun w hop => ?_, fun _ => rfl⟩
  have hword : w = 0x0000 ↔ w.toNat % 4096 = 0 := eq_formatZ_word_iff hop rfl
  simp only [decode_numeric, hop, hword]

/-- Settles O15: the decoder's row of OP 6, and the operation STAT.CLR is. -/
theorem statClrClearsTheStickyFlags : Obligations.StatClrClearsTheStickyFlags := by
  unfold Obligations.StatClrClearsTheStickyFlags
  refine ⟨fun w hop => ?_, fun _ => rfl⟩
  have hword : w = 0x6000 ↔ w.toNat % 4096 = 0 := eq_formatZ_word_iff hop rfl
  simp only [decode_numeric, hop, hword]

/-- Settles O16: OP decides which of the two rows an illegal word is, and both raise ERR_ILL. -/
theorem illegalWordsOnlySetErrIll : Obligations.IllegalWordsOnlySetErrIll := by
  unfold Obligations.IllegalWordsOnlySetErrIll
  refine ⟨fun w hill => ?_, fun _ _ => ⟨rfl, rfl⟩⟩
  by_cases hop : Word.op w ≤ 7
  · exact .inl (decode_of_isIllegal hill hop)
  · exact .inr (decode_of_high_op (by omega))

end Sys2Proof.Machine
end

section
/-! PROOFS. 60_exceptions.md: what the error flags record, that nothing depends on them, and that no legal state stops. -/

namespace Sys2Proof.Machine

/-! ### The error flags influence nothing (60_exceptions.md R143) -/

/-- Execution reads no error flag: from other flags it reaches the same state, but for those flags. -/
theorem exec_withErrors {i : Instr} {s t : State} (h : exec i s = .next t) (ill dig : Bool) :
    ∃ ill' dig', exec i { s with errIll := ill, errDig := dig } = .next { t with errIll := ill', errDig := dig' } := by
  rcases exec_cases h with ⟨rfl, rfl⟩ | ⟨rfl, rfl⟩ | ⟨b, rfl, rfl⟩ | ⟨b, rfl, rfl⟩ | ⟨a, o, f, rfl, hl, rfl⟩ |
    ⟨a, o, f, rfl, hl, rfl⟩ | ⟨v, tid, rfl, hl, rfl⟩ | ⟨v, tid, rfl, hl, rfl⟩ | ⟨rfl, rfl⟩ | ⟨⟨w, rfl⟩ | ⟨w, rfl⟩, rfl⟩
  · exact ⟨ill, dig, rfl⟩
  · exact ⟨ill, dig, rfl⟩
  · exact ⟨ill, dig, rfl⟩
  · exact ⟨ill, dig, rfl⟩
  · exact ⟨ill, dig, execFpLdd_legal hl _⟩
  · exact ⟨ill, true, execFpLdd_illegal hl _⟩
  · exact ⟨ill, dig, execFpSend_legal hl _⟩
  · exact ⟨true, dig, execFpSend_illegal hl _⟩
  · exact ⟨false, false, rfl⟩
  · exact ⟨true, dig, rfl⟩
  · exact ⟨true, dig, rfl⟩

section

variable (r : WellFormedRom)

/-- An edge reads no error flag. -/
theorem edge_withErrors {inp : Inputs} {s t : State} (h : edge r inp s = .next t) (ill dig : Bool) :
    ∃ ill' dig', edge r inp { s with errIll := ill, errDig := dig } =
      .next { t with errIll := ill', errDig := dig' } := by
  rcases edge_cases r h with ⟨hr, rfl⟩ | ⟨hr, hb, ho, rfl⟩ | ⟨hr, hb, ho, b, hp, rfl⟩ | ⟨hr, hb, hv, hx⟩ | ⟨hr, hb, hv, rfl⟩
  · exact ⟨false, false, edge_reset r hr _⟩
  · exact ⟨ill, dig, edge_stall r hr ho hb⟩
  · exact ⟨ill, dig, edge_transfer r hr ho (s := { s with errIll := ill, errDig := dig }) hb hp⟩
  · rw [edge_accept r hr hv (s := { s with errIll := ill, errDig := dig }) hb]
    exact exec_withErrors hx ill dig
  · exact ⟨ill, dig, edge_idle r hr hv hb⟩

/-- Which byte transfers at an edge depends on no error flag. -/
theorem transferred_withErrors (inp : Inputs) (s : State) (ill dig : Bool) :
    transferred r.rom inp { s with errIll := ill, errDig := dig } = transferred r.rom inp s := rfl

/-- A run from other error flags reaches the same state, but for those flags, and emits the same bytes. -/
theorem runEdges_withErrors {inps : List Inputs} {s t : State} (h : runEdges r inps s = .next t) (ill dig : Bool) :
    (∃ ill' dig', runEdges r inps { s with errIll := ill, errDig := dig } =
      .next { t with errIll := ill', errDig := dig' }) ∧
    emitted r inps { s with errIll := ill, errDig := dig } = emitted r inps s := by
  induction inps generalizing s ill dig with
  | nil => injection h with h; exact ⟨⟨ill, dig, by rw [h]; rfl⟩, rfl⟩
  | cons inp inps ih =>
    cases he : edge r inp s with
    | next u =>
      rw [runEdges_cons r he] at h
      obtain ⟨ill', dig', he'⟩ := edge_withErrors r he ill dig
      rw [runEdges_cons r he', emitted_cons r he', emitted_cons r he, transferred_withErrors]
      obtain ⟨hrun, hemit⟩ := ih h ill' dig'
      exact ⟨hrun, by rw [hemit]⟩
    | fault f => simp [runEdges, he] at h
    | refused f => simp [runEdges, he] at h

end

/-- Settles O18, by induction on the edges: states that differ in the error flags only step to such states again. -/
theorem errorFlagsInfluenceNothing : Obligations.ErrorFlagsInfluenceNothing := by
  unfold Obligations.ErrorFlagsInfluenceNothing
  intro rom inps s t ill dig h
  obtain ⟨⟨ill', dig', hrun⟩, hemit⟩ := runEdges_withErrors rom h ill dig
  exact ⟨_, hrun, rfl, hemit⟩

/-! ### What the error flags record (60_exceptions.md R141, R142) -/

/-- The commands that raise ErrIll, by the check FP.SEND makes. -/
theorem raisesErrIll_iff (i : Instr) : raisesErrIll i ↔
    (∃ w, i = .illegal w) ∨ (∃ w, i = .illegalHigh w) ∨ ∃ v tid, i = .fpSend v tid ∧ sendLegal v tid = false := by
  cases i <;> simp [raisesErrIll, sendLegal_eq_false_iff]

/-- The commands that raise ErrDig, by the check FP.LDD makes. -/
theorem raisesErrDig_iff (i : Instr) : raisesErrDig i ↔
    ∃ t o f, i = .fpLdd t o f ∧ Digits.legal ⟨t, o, f⟩ = false := by
  cases i <;> simp [raisesErrDig, digits_illegal_iff, Nat.lt_iff_add_one_le]

theorem exec_of_raisesErrIll {i : Instr} (h : raisesErrIll i) (s : State) : exec i s = .next (s.raise .errIll) := by
  rcases (raisesErrIll_iff i).1 h with ⟨w, rfl⟩ | ⟨w, rfl⟩ | ⟨v, tid, rfl, hl⟩
  · rfl
  · rfl
  · exact execFpSend_illegal hl s

theorem exec_of_raisesErrDig {i : Instr} (h : raisesErrDig i) (s : State) : exec i s = .next (s.raise .errDig) := by
  obtain ⟨a, o, f, rfl, hd⟩ := (raisesErrDig_iff i).1 h
  exact execFpLdd_illegal hd s

theorem not_raisesErrDig_of_raisesErrIll {i : Instr} (h : raisesErrIll i) : ¬raisesErrDig i := by
  rcases (raisesErrIll_iff i).1 h with ⟨w, rfl⟩ | ⟨w, rfl⟩ | ⟨v, tid, rfl, _⟩
  all_goals exact id

/-- A flag is up after a command that raises it, and stays up unless the command is STAT.CLR (60_exceptions.md R143, R146). -/
theorem errors_of_exec {i : Instr} {s t : State} (h : exec i s = .next t) :
    (t.errIll = true ↔ raisesErrIll i ∨ (s.errIll = true ∧ i ≠ .statClr)) ∧
    (t.errDig = true ↔ raisesErrDig i ∨ (s.errDig = true ∧ i ≠ .statClr)) := by
  rw [raisesErrIll_iff, raisesErrDig_iff]
  rcases exec_cases h with ⟨rfl, rfl⟩ | ⟨rfl, rfl⟩ | ⟨b, rfl, rfl⟩ | ⟨b, rfl, rfl⟩ | ⟨a, o, f, rfl, hl, rfl⟩ |
    ⟨a, o, f, rfl, hl, rfl⟩ | ⟨v, tid, rfl, hl, rfl⟩ | ⟨v, tid, rfl, hl, rfl⟩ | ⟨rfl, rfl⟩ | ⟨⟨w, rfl⟩ | ⟨w, rfl⟩, rfl⟩
  all_goals simp [*]

/-- Settles O17: every command answers a next state, and one that raises an error does nothing else. -/
theorem errorFlagsRecordExactlyTheErrors : Obligations.ErrorFlagsRecordExactlyTheErrors := by
  unfold Obligations.ErrorFlagsRecordExactlyTheErrors
  intro i s
  obtain ⟨t, ht⟩ := exec_next i s
  obtain ⟨hill, hdig⟩ := errors_of_exec ht
  refine ⟨t, ht, hill, hdig, fun ⟨hi, hd⟩ => not_raisesErrDig_of_raisesErrIll hi hd, fun hi => ?_, fun hd => ?_⟩
  · injection ht.symm.trans (exec_of_raisesErrIll hi s)
  · injection ht.symm.trans (exec_of_raisesErrDig hd s)

/-! ### Legal states (60_exceptions.md R153) -/

/-- The input draws are no part of legality. -/
theorem State.Legal.dropInputs {rom : TemplateRom} {s : State} (h : s.Legal rom) : s.dropInputs.Legal rom := by
  obtain ⟨hdig, htsel, hvar, hidle, hsend⟩ := h
  refine ⟨?_, ?_, ?_, ?_, ?_⟩
  all_goals simpa

/-- Settles O27: a step is an edge from a state that the draw it takes leaves legal. -/
theorem legalStatesNeverStop : Obligations.LegalStatesNeverStop := by
  unfold Obligations.LegalStatesNeverStop
  exact ⟨fun rom inp _ h => edge_next_of_legal rom h inp,
    fun s h => edge_next_of_legal Config.templateRom h.dropInputs s.nextInputs⟩

end Sys2Proof.Machine
end

section
/-! PROOFS. 70_reset_and_hazards.md sections 4 and 5 (R170, R171): a fair sink ends every frame, and how many edges a command
takes when the sink is always ready. -/

namespace Sys2Proof.Machine

/-! ### How many edges a command takes (70_reset_and_hazards.md R171) -/

/-- A command starts a frame and takes one edge more than the frame has bytes, or it leaves BUSY alone and takes one edge. -/
theorem exec_busy_and_edges (rom : TemplateRom) {i : Instr} {s t : State} (hx : exec i s = .next t) :
    (∃ v tid, sendLegal v tid = true ∧ t = s.startFrame v tid ∧ commandEdges rom i = rom.len tid + 1) ∨
    (t.busy = s.busy ∧ commandEdges rom i = 1) := by
  rcases exec_cases hx with ⟨rfl, rfl⟩ | ⟨rfl, rfl⟩ | ⟨b, rfl, rfl⟩ | ⟨b, rfl, rfl⟩ | ⟨a, o, f, rfl, -, rfl⟩ |
    ⟨a, o, f, rfl, -, rfl⟩ | ⟨v, tid, rfl, hl, rfl⟩ | ⟨v, tid, rfl, hl, rfl⟩ | ⟨rfl, rfl⟩ | ⟨⟨w, rfl⟩ | ⟨w, rfl⟩, rfl⟩
  case inr.inr.inr.inr.inr.inr.inl => exact .inl ⟨v, tid, hl, rfl, if_pos hl⟩
  case inr.inr.inr.inr.inr.inr.inr.inl =>
    exact .inr ⟨State.raise_busy _ _, if_neg (ne_true_of_eq_false hl)⟩
  all_goals exact .inr ⟨by simp, rfl⟩

/-- A command is accepted only by an idle block, which executes it at that edge (10_state.md R33). -/
theorem edge_of_accepts (r : WellFormedRom) {inp : Inputs} {s : State} (h : accepts inp s = true) :
    s.busy = false ∧ edge r inp s = exec (decode inp.cmd) s := by
  obtain ⟨hv, hready⟩ := Bool.and_eq_true_iff.1 h
  obtain ⟨hb, hr⟩ := (cmdReady_iff inp.rst s).1 hready
  exact ⟨hb, edge_accept r hr hv hb⟩

/-- A frame is still being sent while fewer edges have passed than it has bytes. -/
theorem runEdges_startFrame_busy (r : WellFormedRom) {s : State} {v : Bool} {tid : TemplateId} {inps : List Inputs}
    (hn : NoReset inps) (hlen : inps.length < r.rom.len tid) :
    ∃ t, runEdges r inps (s.startFrame v tid) = .next t ∧ t.busy = true := by
  have hcount : readyCount inps ≤ inps.length := List.countP_le_length
  have hrun := (runEdges_afterBytes r (s := s.startFrame v tid) (k := 0) rfl hn
    (by rw [State.startFrame_tsel]; omega)).2
  rw [afterBytes_zero_startFrame] at hrun
  exact ⟨_, hrun, rfl⟩

/-- Settles O45: a legal FP.SEND is followed by the edges of its frame, and every other command leaves the block idle at the
edge that accepts it. -/
theorem commandsTakeTheirEdges : Obligations.CommandsTakeTheirEdges := by
  unfold Obligations.CommandsTakeTheirEdges
  intro rom i s first rest hwf haccepts hcmd hn hready
  obtain ⟨hb, hedge⟩ := edge_of_accepts rom haccepts
  rw [hcmd, decode_encode hwf] at hedge
  obtain ⟨t, hx⟩ := exec_next i s
  rw [runEdges_cons rom (hedge.trans hx)]
  rcases exec_busy_and_edges rom.rom hx with ⟨v, tid, hl, rfl, hedges⟩ | ⟨hbusy, hedges⟩
  · rw [hedges, Nat.add_lt_add_iff_right, Nat.add_right_cancel_iff]
    exact ⟨runEdges_startFrame_busy rom hn, fun hlen =>
      ⟨_, (runEdges_frame_of_ready rom (sendLegal_id hl) hn hready hlen).2, rfl⟩⟩
  · rw [hedges]
    refine ⟨fun hlt => absurd hlt (by omega), fun hlen => ?_⟩
    obtain rfl : rest = [] := List.eq_nil_of_length_eq_zero (Nat.succ.inj hlen)
    exact ⟨t, rfl, hbusy.trans hb⟩

/-! ### A fair sink (70_reset_and_hazards.md R170, decision D30) -/

/-- An infinite sequence of inputs without reset in which the sink is ready infinitely often. -/
structure FairFeed (feed : Nat → Inputs) : Prop where
  rst   : ∀ n, (feed n).rst = false
  ready : ∀ n, ∃ m, n ≤ m ∧ (feed m).outReady = true

/-- The first `n` inputs of a sequence. -/
def feedPrefix (feed : Nat → Inputs) (n : Nat) : List Inputs := (List.range n).map feed

theorem feedPrefix_add (feed : Nat → Inputs) (m n : Nat) :
    feedPrefix feed (m + n) = feedPrefix feed m ++ feedPrefix (fun j => feed (m + j)) n := by
  rw [feedPrefix, List.range_add, List.map_append, List.map_map]
  rfl

section

variable {feed : Nat → Inputs}

/-- What is left of a fair sequence is fair. -/
theorem FairFeed.shift (h : FairFeed feed) (n : Nat) : FairFeed fun j => feed (n + j) := by
  refine ⟨fun j => h.rst (n + j), fun k => ?_⟩
  obtain ⟨m, hm, ho⟩ := h.ready (n + k)
  obtain ⟨j, rfl⟩ := Nat.exists_eq_add_of_le hm
  rw [Nat.add_assoc] at ho
  exact ⟨k + j, Nat.le_add_right k j, ho⟩

theorem FairFeed.noReset (h : FairFeed feed) (n : Nat) : NoReset (feedPrefix feed n) :=
  List.forall_mem_map.2 fun j _ => h.rst j

/-- A fair sequence has a first ready edge. -/
theorem FairFeed.exists_first_ready (h : FairFeed feed) :
    ∃ m, (feed m).outReady = true ∧ ∀ inp ∈ feedPrefix feed m, inp.outReady = false := by
  have hready : ∃ m, (feed m).outReady = true := (h.ready 0).imp fun _ hm => hm.2
  refine ⟨Nat.find hready, Nat.find_spec hready, List.forall_mem_map.2 fun j hj => ?_⟩
  exact eq_false_of_ne_true (Nat.find_min hready (List.mem_range.1 hj))

variable (r : WellFormedRom) {s : State}

/-- A busy block at a populated address transfers the byte there at some edge of a fair sequence, stalling until then. -/
theorem runEdges_fair_transfer (h : FairFeed feed) (hb : s.busy = true) (hidx : s.idx.toNat < r.rom.len s.tsel) :
    ∃ n b, runEdges r (feedPrefix feed n) s = .next (s.transferByte r.rom b) := by
  obtain ⟨m, ho, hstall⟩ := h.exists_first_ready
  obtain ⟨b, hp⟩ := byteAt_of_populated r.rom s.tsel s.var s.dig s.acc hidx
  refine ⟨m + 1, b, ?_⟩
  rw [feedPrefix_add, runEdges_append r (runEdges_stalled r hb (h.noReset m) hstall)]
  exact runEdges_cons r (edge_transfer r (h.rst m) ho hb hp) []

/-- By induction on the bytes to send after the presented one: a fair sequence ends the frame. -/
theorem runEdges_fair_ends (h : FairFeed feed) (hb : s.busy = true) {k : Nat}
    (hleft : s.idx.toNat + 1 + k = r.rom.len s.tsel) :
    ∃ n t, runEdges r (feedPrefix feed n) s = .next t ∧ t.busy = false ∧ t.idx = 0 := by
  induction k generalizing s feed with
  | zero =>
    obtain ⟨n, b, hrun⟩ := runEdges_fair_transfer r h hb (by omega)
    have hlast : s.atLast r.rom = true := beq_iff_eq.2 hleft
    exact ⟨n, _, hrun, by simp [hlast], by simp [hlast]⟩
  | succ k ih =>
    obtain ⟨n, b, hrun⟩ := runEdges_fair_transfer r h hb (by omega)
    have hmore : s.atLast r.rom = false := beq_eq_false_iff_ne.2 (by omega)
    have hidx : (s.transferByte r.rom b).idx.toNat = s.idx.toNat + 1 := by
      have hlen := r.len_le s.tsel
      rw [State.transferByte_idx, hmore, if_neg Bool.false_ne_true, BitVec.toNat_add]
      exact Nat.mod_eq_of_lt (show s.idx.toNat + 1 < 64 by omega)
    obtain ⟨m, t, hrest, hidle, hzero⟩ := ih (h.shift n) (s := s.transferByte r.rom b) (by simp [hmore, hb])
      (by rw [hidx, State.transferByte_tsel]; omega)
    exact ⟨n + m, t, by rw [feedPrefix_add, runEdges_append r hrun, hrest], hidle, hzero⟩

end

/-- Settles O46: a legal busy state presents one of the bytes of its frame. -/
theorem fairSinkEndsEveryFrame : Obligations.FairSinkEndsEveryFrame := by
  unfold Obligations.FairSinkEndsEveryFrame
  intro rom s feed hlegal hb hrst hready
  obtain ⟨k, hk⟩ := Nat.exists_eq_add_of_le (hlegal.sending hb)
  exact runEdges_fair_ends rom ⟨hrst, hready⟩ hb hk.symm

end Sys2Proof.Machine
end

section
/-! PROOFS. 70_reset_and_hazards.md sections 1 and 3 (R160, R161, R164): reset edges, a frame cut short by one, and the command
port of a busy block. -/

namespace Sys2Proof.Machine

/-! ### Reset (70_reset_and_hazards.md R160, R161) -/

/-- No command is accepted at a reset edge, nor by a busy block (10_state.md R33). -/
theorem accepts_eq_false {inp : Inputs} {s : State} (h : s.busy = true ∨ inp.rst = true) : accepts inp s = false := by
  rcases h with h | h
  all_goals simp [accepts, State.cmdReady, h]

/-- Reset edges keep the reset state and emit nothing. -/
theorem runEdges_resetBlock (r : WellFormedRom) {inps : List Inputs} (h : ∀ inp ∈ inps, inp.rst = true) (s : State) :
    runEdges r inps s.resetBlock = .next s.resetBlock ∧ emitted r inps s.resetBlock = [] := by
  induction inps with
  | nil => exact ⟨rfl, rfl⟩
  | cons inp inps ih =>
    obtain ⟨hr, h⟩ := List.forall_mem_cons.1 h
    have hedge : edge r inp s.resetBlock = .next s.resetBlock := edge_reset r hr s.resetBlock
    rw [runEdges_cons r hedge, emitted_cons r hedge, transferred_reset r hr]
    exact ih h

/-- Settles O2: the first edge gives the reset state and the others keep it. -/
theorem resetEdgesGiveTheResetState : Obligations.ResetEdgesGiveTheResetState := by
  unfold Obligations.ResetEdgesGiveTheResetState
  intro rom inp inps s h
  obtain ⟨hr, h⟩ := List.forall_mem_cons.1 h
  obtain ⟨hrun, hemit⟩ := runEdges_resetBlock rom h s
  have hedge := edge_reset rom hr s
  have hnone := transferred_reset rom hr s
  refine ⟨(runEdges_cons rom hedge inps).trans hrun, ?_, accepts_eq_false (.inr hr), hnone⟩
  rw [emitted_cons rom hedge, hnone]
  exact hemit

/-- Settles O36: up to the reset edge the sink has the first bytes of the frame, and that edge transfers none. -/
theorem resetTruncatesTheFrame : Obligations.ResetTruncatesTheFrame := by
  unfold Obligations.ResetTruncatesTheFrame
  intro rom s s0 v tid inps last hl hx hn hcount hr
  obtain ⟨hemit, hrun⟩ := partOfAFrameIsItsPrefix rom s s0 v tid inps hl hx hn hcount
  obtain rfl := eq_startFrame_of_exec hl hx
  have hprefix : emitted rom (inps ++ [last]) (s.startFrame v tid) =
      (frame rom.rom tid v s.dig).take (readyCount inps) := by
    rw [emitted_append rom hrun, emitted_cons rom (edge_reset rom hr _), transferred_reset rom hr, hemit]
    exact List.append_nil _
  refine ⟨hprefix, ?_, ?_⟩
  · rw [hprefix]
    exact Nat.lt_of_le_of_lt (List.length_take_le _ _) hcount
  · rw [runEdges_append rom hrun, runEdges_cons rom (edge_reset rom hr _)]
    rfl

/-! ### The command port of a busy block (70_reset_and_hazards.md R164) -/

/-- An edge of a busy block is the same with any command offered. -/
theorem edge_busy_congr (r : WellFormedRom) {inp inp' : Inputs} {s : State} (hb : s.busy = true)
    (hrst : inp.rst = inp'.rst) (hready : inp.outReady = inp'.outReady) : edge r inp s = edge r inp' s := by
  cases hr : inp'.rst with
  | true => rw [edge_reset r (hrst.trans hr), edge_reset r hr]
  | false => rw [edge_busy r (hrst.trans hr) hb, edge_busy r hr hb, hready]

/-- Settles O23: a busy block reads `rst` and `out_ready` alone, and so does the byte that transfers. -/
theorem busyBlockIgnoresTheCommandPort : Obligations.BusyBlockIgnoresTheCommandPort := by
  unfold Obligations.BusyBlockIgnoresTheCommandPort
  intro rom inp s w valid hb
  have hclosed : s.cmdReady inp.rst = false := by rw [State.cmdReady, hb, Bool.not_true, Bool.false_and]
  exact ⟨accepts_eq_false (.inl hb), hclosed, edge_busy_congr rom hb rfl rfl, rfl⟩

end Sys2Proof.Machine
end
